-- ==== Sys2Proof/Word.lean ====
section
/-! DEFINITION. The word of the block. Every data word, slot field, argument and pin identifier is 32 bits
(00_scope.md R6: W, TIME_W and PIN_W are 32; R7: bit 0 is the least significant bit). -/

namespace Sys2Proof

/-- A 32-bit word (R6, R7). `toNat` is its `u32` reading and `toInt` its `s32` reading. -/
abbrev Word := BitVec 32

end Sys2Proof
end

