-- ==== Sys2Proof/Config.lean ====
section
/-! DEFINITION. What an implementation fixes, and the free values.

The OPEN parameters of R6 are plain data (`Config`), which State carries, so that a statement about every state is a
statement about every value of the parameters. `Config.implementation` is the unknown machine at hand: nothing in Lean
can evaluate it. The opaque functions are the values the spec leaves open (log 1, 3, 5, 6). -/

namespace Sys2Proof

/-- The OPEN parameters of R6: `MAX_SLOTS` and `VERSION`. -/
structure Config where
  /-- `MAX_SLOTS`: the number of physical motor slots, an integer in 1..255 (R6, D10). -/
  maxSlots : Nat
  /-- `VERSION`: the word that the VERSION command reports (R6, R107, D20). -/
  version : Word
deriving DecidableEq, Repr

/-- `MAX_ARGS = max(5, MAX_SLOTS)`: the argument words of a command record (R6, R50, D2). -/
def Config.maxArgs (c : Config) : Nat := max 5 c.maxSlots

/-- The legal values of `MAX_SLOTS` (R6). -/
abbrev Config.Legal (c : Config) : Prop := 1 ≤ c.maxSlots ∧ c.maxSlots ≤ 255

/-- `MS_PER_MIN` (R6). -/
def Config.msPerMin : Nat := 60000

/-- `PHASES` (R6). -/
def Config.phases : Nat := 4

/-- Free value: how many slots the implementation has beyond the first, so that `MAX_SLOTS` is any of 1..255 (log 1). -/
opaque Config.slotsBeyondFirst : Fin 255

/-- Free value: the implementation's `VERSION` word, any word (R107: "A model must not assume any particular number";
log 1). -/
opaque Config.versionWord : Word

/-- The parameters of the machine at hand (log 1). -/
def Config.implementation : Config where
  maxSlots := Config.slotsBeyondFirst.val + 1
  version := Config.versionWord

/-- Free value: the `n`-th word to which the spec gives no value, `pinC` or `pinD` of a TwoWire slot (R26, U8; log 5). -/
opaque Config.freeWord : Nat → Word

/-- Free value: how far the environment advances the clock before an action that the schedule does not reach: "any
amount of zero or more, and that amount is a draw" (R31, U11; log 3). -/
opaque Config.clockAdvance : Nat → Nat

/-- Free value: the clock's time `T` when the run starts, "any value" (R37; log 6). -/
opaque Config.startTime : Nat

end Sys2Proof
end

