-- ==== Sys2Proof/Syntax.lean ====
section
/-! DEFINITION. The commands as syntax: one constructor per row of the opcode table (R52, R64), the command record that
carries one (R50), and what decoding a header can answer (R56). -/

namespace Sys2Proof

/-- The commands of R12 and R52, with the operands of R57 as whole argument words (R58). -/
inductive Instr where
  /-- CONSTRUCT (R67). -/
  | construct (capacity : Word)
  /-- REG2 (R69). -/
  | reg2 (spr pinA pinB : Word)
  /-- REG4 (R70). -/
  | reg4 (spr pinA pinB pinC pinD : Word)
  /-- SET_SPEED (R71). -/
  | setSpeed (motor rpm : Word)
  /-- MOVE_BY (R83): the `N` targets, so that `N` is the list's length. -/
  | moveBy (targets : List Word)
  /-- VERSION (R107). -/
  | version
deriving DecidableEq, Repr

/-- The command record of R50: the header word `H` and the argument words `A[0]`, `A[1]`, ... . The record of the
hardware has `MAX_ARGS` argument words; words that are not listed are 0, as the assembler writes them (R62; log 9). -/
structure Command where
  /-- The header word `H` (R51). -/
  hdr : Word
  /-- The argument words, `A[0]` first (R57). -/
  args : List Word
deriving DecidableEq, Repr

/-- The operation that a header selects (R52); MOVE_BY carries the `N` field (R54). -/
inductive Op where
  | construct
  | reg2
  | reg4
  | setSpeed
  | moveBy (n : BitVec 8)
  | version
deriving DecidableEq, Repr

/-- Why a header is illegal: the three cases of R60. -/
inductive Illegal where
  /-- R60 (a), R55: `H[31:16]` is not 0. -/
  | reservedField
  /-- R60 (b): `H[7:0]` is 0x00 or in 0x07..0xFF. -/
  | opcode
  /-- R60 (c), R54: `H[15:8]` is not 0 for an operation other than MOVE_BY. -/
  | operandCount
deriving DecidableEq, Repr

/-- The answer of decoding a header word (R56). -/
inductive HeaderDecode where
  | op (o : Op)
  | illegal (why : Illegal)
deriving DecidableEq, Repr

/-- The answer of decoding a command record. -/
inductive Decoded where
  | instr (i : Instr)
  | illegal (why : Illegal)
deriving DecidableEq, Repr

/-- A row of the opcode map of R64: a header selects it when `H AND mask = pattern`. -/
structure OpRow where
  mnemonic : String
  pattern : Word
  mask : Word
deriving DecidableEq, Repr

end Sys2Proof
end

