-- ==== Sys2Proof/WellFormed.lean ====
section
/-! DEFINITION. Well-formed commands and command records. Every operand is a whole word, so the one check on an
instruction is that MOVE_BY's operand count fits the `N` field (R54: "0..255"). A record of the hardware has exactly
`MAX_ARGS` argument words (R50). -/

namespace Sys2Proof

/-- The instruction has an encoding: MOVE_BY's number of targets is in 0..255 (R54); the others always have one. -/
def Instr.wellFormed : Instr → Bool
  | .construct _ => true
  | .reg2 _ _ _ => true
  | .reg4 _ _ _ _ _ => true
  | .setSpeed _ _ => true
  | .moveBy targets => decide (targets.length ≤ 255)
  | .version => true

/-- The record has the hardware's shape: exactly `MAX_ARGS` argument words (R50). -/
def Command.wellFormed (cfg : Config) (c : Command) : Bool := decide (c.args.length = cfg.maxArgs)

end Sys2Proof
end

