-- ==== Sys2Proof/Decode.lean ====
section
/-! DEFINITION. Decoding a command record, and encoding one (30_encoding.md R50 to R64). Decoding is total (R56): it
answers an instruction, or names why the header is illegal (R60). -/

namespace Sys2Proof

/-- `OP = H[7:0]` (R51). -/
def headerOp (h : Word) : BitVec 8 := h.extractLsb' 0 8

/-- `N = H[15:8]` (R51). -/
def headerN (h : Word) : BitVec 8 := h.extractLsb' 8 8

/-- `RSV = H[31:16]` (R51). -/
def headerRsv (h : Word) : BitVec 16 := h.extractLsb' 16 16

/-- The last check of R56: an operation other than MOVE_BY needs `H[15:8] = 0`. -/
def withoutCount (h : Word) (o : Op) : HeaderDecode :=
  if headerN h ≠ 0 then .illegal .operandCount else .op o

/-- `Decode(H)` of R56, its checks in the order of the rule. -/
def decodeHeader (h : Word) : HeaderDecode :=
  if headerRsv h ≠ 0 then .illegal .reservedField
  else
    match (headerOp h).toNat with
    | 1 => withoutCount h .construct
    | 2 => withoutCount h .reg2
    | 3 => withoutCount h .reg4
    | 4 => withoutCount h .setSpeed
    | 5 => .op (.moveBy (headerN h))
    | 6 => withoutCount h .version
    | _ => .illegal .opcode

/-- `A[k]` of a record; a word that is not listed is 0 (R57, R62; log 9). -/
def Command.arg (c : Command) (k : Nat) : Word := c.args.getD k 0

/-- The operands of an operation, in the layout of R57. -/
def operandsOf (c : Command) : Op → Instr
  | .construct => .construct (c.arg 0)
  | .reg2 => .reg2 (c.arg 0) (c.arg 1) (c.arg 2)
  | .reg4 => .reg4 (c.arg 0) (c.arg 1) (c.arg 2) (c.arg 3) (c.arg 4)
  | .setSpeed => .setSpeed (c.arg 0) (c.arg 1)
  | .moveBy n => .moveBy ((List.range n.toNat).map c.arg)
  | .version => .version

/-- The decoder: the header alone selects the operation (R50), then the argument words are read (R57). -/
def decode (c : Command) : Decoded :=
  match decodeHeader c.hdr with
  | .illegal why => .illegal why
  | .op o => .instr (operandsOf c o)

/-- The header word `{16'h0000, N[7:0], OP[7:0]}` (R62). -/
def makeHeader (n op : BitVec 8) : Word := (0 : BitVec 16) ++ n ++ op

/-- The header word of an operation (R52, R64). -/
def Op.header : Op → Word
  | .construct => makeHeader 0 0x01
  | .reg2 => makeHeader 0 0x02
  | .reg4 => makeHeader 0 0x03
  | .setSpeed => makeHeader 0 0x04
  | .moveBy n => makeHeader n 0x05
  | .version => makeHeader 0 0x06

/-- The record that a command assembles to (R62): its header and the argument words it gives. -/
def encode : Instr → Command
  | .construct capacity => ⟨Op.construct.header, [capacity]⟩
  | .reg2 spr pinA pinB => ⟨Op.reg2.header, [spr, pinA, pinB]⟩
  | .reg4 spr pinA pinB pinC pinD => ⟨Op.reg4.header, [spr, pinA, pinB, pinC, pinD]⟩
  | .setSpeed motor rpm => ⟨Op.setSpeed.header, [motor, rpm]⟩
  | .moveBy targets => ⟨(Op.moveBy (BitVec.ofNat 8 targets.length)).header, targets⟩
  | .version => ⟨Op.version.header, []⟩

/-- The record with 0 in every argument word that the command does not give: the `MAX_ARGS` words that the assembler
writes (R62, R50). -/
def Command.padded (cfg : Config) (c : Command) : Command :=
  { c with args := c.args ++ List.replicate (cfg.maxArgs - c.args.length) 0 }

/-- The complete opcode map of R64, in its order. -/
def opcodeMap : List OpRow :=
  [⟨"CONSTRUCT", 0x00000001, 0xFFFFFFFF⟩, ⟨"REG2", 0x00000002, 0xFFFFFFFF⟩, ⟨"REG4", 0x00000003, 0xFFFFFFFF⟩] ++
  [⟨"SET_SPEED", 0x00000004, 0xFFFFFFFF⟩, ⟨"MOVE_BY", 0x00000005, 0xFFFF00FF⟩, ⟨"VERSION", 0x00000006, 0xFFFFFFFF⟩]

/-- A header selects a row when `H AND mask = match` (R64). -/
def OpRow.selectedBy (r : OpRow) (h : Word) : Bool := (h &&& r.mask) == r.pattern

/-- The mnemonic of an operation (R12, R52). -/
def Op.mnemonic : Op → String
  | .construct => "CONSTRUCT"
  | .reg2 => "REG2"
  | .reg4 => "REG4"
  | .setSpeed => "SET_SPEED"
  | .moveBy _ => "MOVE_BY"
  | .version => "VERSION"

/-- The record of an instruction given as a number whose bit 0 is the least significant bit of the header: the low
32 bits are `H`, the next 32 are `A[0]`, and so on; every bit from `nbits` on is 0. -/
def commandOfBits (nbits w : Nat) : Command where
  hdr := BitVec.ofNat 32 (w % 2 ^ nbits)
  args := (List.range (nbits / 32 - 1)).map fun k => BitVec.ofNat 32 ((w % 2 ^ nbits) / 2 ^ (32 * (k + 1)))

/-- What the decoder reads from a word numbered as the opcode table numbers it; `none` where it is illegal. -/
def decodeTableWord (nbits w : Nat) : Option Instr :=
  match decode (commandOfBits nbits w) with
  | .instr i => some i
  | .illegal _ => none

end Sys2Proof
end

