-- ==== Sys2Proof/Machine/State.lean ====
section
/-! DEFINITION. The state of the block and of its environment (10_state.md), the ways a step can stop, and the state
after reset (R37, R125). -/

namespace Sys2Proof.Machine

/-- `direction[i]` (R22): 0 is Forward and 1 is Backward. -/
inductive Direction where
  | forward
  | backward
deriving DecidableEq, Repr

/-- `wiring[i]` (R2, R25): 0 is TwoWire and 1 is FourWire. -/
inductive Wiring where
  | twoWire
  | fourWire
deriving DecidableEq, Repr

/-- The level of a pin write (R9, R11). -/
inductive Level where
  | low
  | high
deriving DecidableEq, Repr

/-- One motor slot of the register file (R19 to R27), field by field. -/
structure Slot where
  /-- R20: the modulo step-index counter. -/
  stepIndex : Word
  /-- R21: stepsPerRevolution. -/
  spr : Word
  /-- R22. -/
  direction : Direction
  /-- R23: the step-interval register, in milliseconds. -/
  interval : Word
  /-- R24: the last-step timestamp. -/
  lastStep : Word
  /-- R25. -/
  wiring : Wiring
  /-- R26. -/
  pinA : Word
  /-- R26. -/
  pinB : Word
  /-- R26: no specified value in a TwoWire slot. -/
  pinC : Word
  /-- R26: no specified value in a TwoWire slot. -/
  pinD : Word
  /-- R27: the remaining-steps counter. -/
  remaining : Word
deriving DecidableEq, Repr

/-- The content of a slot after reset. DESIGN CHOICE: the spec gives slot fields no value after reset (R37), the model
names 0 for each (log 2, unsafe). -/
def Slot.atReset : Slot where
  stepIndex := 0
  spr := 0
  direction := .forward
  interval := 0
  lastStep := 0
  wiring := .twoWire
  pinA := 0
  pinB := 0
  pinC := 0
  pinD := 0
  remaining := 0

/-- `mode[p]` of the pin sink (R32). -/
inductive PinMode where
  | unconfigured
  | output
deriving DecidableEq, Repr

/-- `lvl[p]` of the pin sink (R32). -/
inductive PinLevel where
  | unknown
  | driven (l : Level)
deriving DecidableEq, Repr

/-- What the sink holds for one pin (R32). -/
structure PinState where
  mode : PinMode
  level : PinLevel
deriving DecidableEq, Repr

/-- What the sink holds for a pin that no event named yet (R32, D19, U10; log 7). -/
def PinState.untouched : PinState := ⟨.unconfigured, .unknown⟩

/-- The events of the trace (R9, R33). -/
inductive Event where
  /-- `SinkConfigure(p)`. -/
  | sinkConfigure (p : Word)
  /-- `SinkWrite(p, l)`. -/
  | sinkWrite (p : Word) (l : Level)
  /-- `Respond(s, d)`: a 4-bit status code and a data word (R109). -/
  | respond (status : BitVec 4) (data : Word)
deriving DecidableEq, Repr

/-- The errors of R109 and R110. -/
inductive Error where
  | capacityError
  | capacityExceeded
  | invalidStepCount
  | invalidSpeed
  | argumentCountMismatch
  | invalidMotorIndex
  | illegalCommand
deriving DecidableEq, Repr

/-- What the environment does for one action: the level of `rst` (R49), and how far the clock advances before the action
(R31). -/
structure Tick where
  rst : Bool
  advance : Nat
deriving DecidableEq, Repr

/-- The actions of R10. -/
inductive Action where
  | accept (c : Command)
  | evaluate
  | reset
deriving DecidableEq, Repr

/-- The whole state: the block's registers (R13 to R27), the environment state that a model keeps beside them (R31, R32,
R33), the parameters (R6), and the environment's choices as plain data (log 3, 4). -/
structure State where
  /-- The parameters of R6; no action writes them (log 1). -/
  cfg : Config
  /-- R14. -/
  capacity : Word
  /-- R15. -/
  count : Word
  /-- R16. -/
  busy : Bool
  /-- R17. -/
  scan : Word
  /-- R19: the slot register file, slot 0 first. -/
  slots : List Slot
  /-- R31: the clock's unbounded time `T`, in milliseconds. -/
  time : Nat
  /-- R32: the pin sink, pin identifier and content, in canonical form (Machine/Sink.lean). -/
  pins : List (Nat × PinState)
  /-- R33: the events emitted so far, the first one first. -/
  trace : List Event
  /-- The commands that the host offers, the next one first; the head is on the command port (R30, R49, R53; log 4). -/
  offered : List Command
  /-- What the environment does for each of the coming actions, the next one first (R10, R31, R49; log 3). -/
  schedule : List Tick
  /-- The model's own counter of the free values drawn so far (log 5). -/
  draws : Nat
deriving DecidableEq, Repr

/-- Why the machine stops. The block itself has no fatal state (R113); both faults are the model's, for states that
break the bank invariants of R18, and both are safe. -/
inductive Fault where
  /-- Raised by SET_SPEED and by an evaluation that would read slot `i`, which is not a registered slot of the file:
  "Reading one would be a model error; no rule does. Treat a read as `fault`" (U9). Safe (log 8). -/
  | unregisteredSlot (i : Nat)
  /-- Raised by a registration or a MOVE_BY that would write slot `i`, which the slot register file does not have
  (R19: "`MAX_SLOTS` slots"). Safe (log 8). -/
  | noSuchSlot (i : Nat)
deriving DecidableEq, Repr

/-- Why a step has no meaning. No arm of `exec` refuses in this model. -/
inductive Refusal where
  /-- Raised by an arm of `exec` whose instruction has no meaning yet; safe. No arm raises it now. -/
  | notModelled (mnemonic : String)
deriving DecidableEq, Repr

/-- The outcome of an action. -/
abbrev Result := Host.Outcome State Fault Refusal

/-- The state right after reset of a machine with parameters `cfg` whose clock stands at `time` (R37, R125): bank
registers 0, slot fields as log 2 names them, nothing in the sink (log 7), no event, nothing offered. -/
def State.resetFor (cfg : Config) (time : Nat) : State where
  cfg := cfg
  capacity := 0
  count := 0
  busy := false
  scan := 0
  slots := List.replicate cfg.maxSlots Slot.atReset
  time := time
  pins := []
  trace := []
  offered := []
  schedule := []
  draws := 0

/-- The machine right after reset: the parameters are the implementation's (log 1) and the clock stands at any time
(R37; log 6). -/
def State.reset : State := State.resetFor Config.implementation Config.startTime

end Sys2Proof.Machine
end

