-- ==== Sys2Proof/Machine/Flags.lean ====
section
/-! DEFINITION. The one-bit state of the block. It has no condition codes and no status register; its only one-bit state
is `direction[i]`, `wiring[i]` and `busy` (R29). -/

namespace Sys2Proof.Machine

/-- The bit of `direction` (R22, D11). -/
def Direction.bit : Direction → BitVec 1
  | .forward => 0
  | .backward => 1

/-- The bit of `wiring` (R25, D11). -/
def Wiring.bit : Wiring → BitVec 1
  | .twoWire => 0
  | .fourWire => 1

/-- The bit of `busy` (R16). -/
def State.busyBit (s : State) : BitVec 1 := if s.busy then 1 else 0

/-- `cmd_ready = NOT busy` (R49, R53). -/
def State.cmdReady (s : State) : Bool := !s.busy

/-- The direction that a move's target sets: from its sign, unchanged for 0 (R22, R84). -/
def Direction.afterTarget (d : Direction) (t : Int) : Direction :=
  if t > 0 then .forward else if t < 0 then .backward else d

end Sys2Proof.Machine
end

