-- ==== Sys2Proof/Machine/Operands.lean ====
section
/-! DEFINITION. The exact arithmetic over operands (R7, R8, R72, R90, R91).
An argument word is read as `u32` by `BitVec.toNat` and as `sext_32` by `BitVec.toInt` (R7, R58). -/

namespace Sys2Proof.Machine

/-- `abs(t)` as the `u32` counter: exact, 2^31 for `t = -2^31` (R84). -/
def absWord (t : Int) : Word := BitVec.ofNat 32 t.natAbs

/-- `60000 div (S * R)`, exact, with no overflow in the product (R72). -/
def intervalOf (spr rpm : Word) : Word := BitVec.ofNat 32 (Config.msPerMin / (spr.toNat * rpm.toNat))

/-- The gate: `((now - lastStep) mod 2^32) >= interval`, unsigned (R90). -/
def gateOpen (now lastStep interval : Word) : Bool := decide (interval.toNat ≤ (now - lastStep).toNat)

/-- The new step index: one up or one down modulo `spr` (R91). -/
def nextIndex (d : Direction) (stepIndex spr : Word) : Word :=
  match d with
  | .forward => BitVec.ofNat 32 ((stepIndex.toNat + 1) % spr.toNat)
  | .backward => BitVec.ofInt 32 (((stepIndex.toNat : Int) - 1 + spr.toNat) % spr.toNat)

/-- The phase `stepIndex mod 4` (R98). -/
def phaseOf (stepIndex : Word) : Fin 4 := ⟨stepIndex.toNat % 4, Nat.mod_lt _ (by decide)⟩

end Sys2Proof.Machine
end

