-- ==== Sys2Proof/Machine/Sink.lean ====
section
/-! DEFINITION. The pin sink (R32) as a list of pin identifier and content in canonical form: identifiers strictly
rising and below 2^32, and no entry equal to what an unlisted pin holds. So equal sinks are equal lists. -/

namespace Sys2Proof.Machine

/-- The canonical form. -/
abbrev PinsWf (l : List (Nat × PinState)) : Prop :=
  (l.map Prod.fst).Pairwise (· < ·) ∧ ∀ e ∈ l, e.1 < 2 ^ 32 ∧ e.2 ≠ PinState.untouched

/-- What the sink holds for a pin. -/
def pinGet : List (Nat × PinState) → Nat → PinState
  | [], _ => PinState.untouched
  | (k, v) :: rest, p => if k = p then v else pinGet rest p

/-- An entry in front of a list, left out when it is what an unlisted pin holds. -/
def pinCons (p : Nat) (v : PinState) (l : List (Nat × PinState)) : List (Nat × PinState) :=
  if v = PinState.untouched then l else (p, v) :: l

/-- The sink with pin `p` holding `v`. -/
def pinPut : List (Nat × PinState) → Nat → PinState → List (Nat × PinState)
  | [], p, v => pinCons p v []
  | (k, w) :: rest, p, v =>
    if p < k then pinCons p v ((k, w) :: rest)
    else if p = k then pinCons p v rest
    else (k, w) :: pinPut rest p v

/-- `SinkConfigure(p)`: "sets `mode[p] <- Output` and leaves `lvl[p]` unchanged" (R32). -/
def sinkConfigured (l : List (Nat × PinState)) (p : Word) : List (Nat × PinState) :=
  pinPut l p.toNat { mode := .output, level := (pinGet l p.toNat).level }

/-- `SinkWrite(p, l)`: "sets `lvl[p] <- l`" (R32). -/
def sinkWritten (l : List (Nat × PinState)) (p : Word) (v : Level) : List (Nat × PinState) :=
  pinPut l p.toNat { mode := (pinGet l p.toNat).mode, level := .driven v }

/-- What one event does to the sink (R32). -/
def sinkAfter (l : List (Nat × PinState)) : Event → List (Nat × PinState)
  | .sinkConfigure p => sinkConfigured l p
  | .sinkWrite p v => sinkWritten l p v
  | .respond _ _ => l

/-- What the sink of a state holds for a pin identifier (R32). -/
def State.pin (s : State) (p : Word) : PinState := pinGet s.pins p.toNat

end Sys2Proof.Machine
end

