-- ==== Sys2Proof/Machine/Ops.lean ====
section
/-! DEFINITION. The operations that the commands and the evaluation share: reading and writing a slot, emitting events,
responding, failing, sampling the clock, registering a motor, the reset action. -/

namespace Sys2Proof.Machine

/-- The fields of slot `i`, where slot `i` is registered (R19: "registered if and only if `i < count`") and the file has
it; there is nothing to read elsewhere (U9). -/
def State.readSlot (s : State) (i : Nat) : Option Slot :=
  if i < s.count.toNat then s.slots[i]? else none

/-- The state with slot `i` holding `v` (R9: `f[i] <- v`). -/
def State.writeSlot (s : State) (i : Nat) (v : Slot) : State := { s with slots := s.slots.set i v }

/-- Emit one event: it goes to the end of the trace and takes its effect in the sink (R33, R41, R32). -/
def State.emit (s : State) (e : Event) : State :=
  { s with trace := s.trace ++ [e], pins := sinkAfter s.pins e }

/-- Emit events in order (R9: "Events emitted inside one action are ordered as written in the pseudocode"). -/
def State.emitAll (s : State) : List Event → State
  | [] => s
  | e :: es => (s.emit e).emitAll es

/-- The status code OK (R109). -/
def statusOk : BitVec 4 := 0

/-- The status code of an error (R109). -/
def Error.code : Error → BitVec 4
  | .capacityError => 1
  | .capacityExceeded => 2
  | .invalidStepCount => 3
  | .invalidSpeed => 4
  | .argumentCountMismatch => 5
  | .invalidMotorIndex => 6
  | .illegalCommand => 7

/-- `Respond(s, d)` (R9, R109). -/
def State.respond (s : State) (status : BitVec 4) (data : Word) : State := s.emit (.respond status data)

/-- `Respond(OK, d)`: a command that succeeded. -/
def succeed (data : Word) (s : State) : Result := .next (s.respond statusOk data)

/-- `fail E`: "`Respond(code(E), 0)`; the command ends and writes no other state and emits no other event" (R9, R111). The
block's one way of raising an error: it has no traps (R115). -/
def fail (e : Error) (s : State) : Result := .next (s.respond e.code 0)

/-- `NowMs()`: `T mod 2^32` (R31). -/
def State.nowMs (s : State) : Word := BitVec.ofNat 32 s.time

/-- The registered slots, slots 0..`count`-1 (R19). -/
def State.registered (s : State) : List Slot := s.slots.take s.count.toNat

/-- "`remaining[i] = 0` for every `i < count`" (R83, R87). -/
def State.allDone (s : State) : Bool := s.registered.all fun m => m.remaining == 0

/-- A freshly registered slot (R68): index 0, Forward, interval, last step and remaining 0. -/
def Slot.registered (spr : Word) (w : Wiring) (pinA pinB pinC pinD : Word) : Slot where
  stepIndex := 0
  spr := spr
  direction := .forward
  interval := 0
  lastStep := 0
  wiring := w
  pinA := pinA
  pinB := pinB
  pinC := pinC
  pinD := pinD
  remaining := 0

/-- Registration, shared by REG2 and REG4 (R68): the preconditions in their order, then slot `count` takes `m`, its
pins are configured, `count` grows by one, and the response carries the slot's number. -/
def registerMotor (m : Slot) (configured : List Word) (draws : Nat) (s : State) : Result :=
  if s.count ≥ s.capacity then fail .capacityExceeded s
  else if m.spr.toInt ≤ 0 then fail .invalidStepCount s
  else if s.slots.length ≤ s.count.toNat then .fault (.noSuchSlot s.count.toNat)
  else
    let t := (s.writeSlot s.count.toNat m).emitAll (configured.map .sinkConfigure)
    succeed s.count { t with count := s.count + 1, draws := s.draws + draws }

/-- The reset action (R125): the bank registers 0 and every slot as after reset (R37; log 2). "No event is emitted; the
clock and the pin sink are not touched." -/
def resetAction (s : State) : State :=
  { s with
    capacity := 0
    count := 0
    busy := false
    scan := 0
    slots := List.replicate s.cfg.maxSlots Slot.atReset }

end Sys2Proof.Machine
end

