-- ==== Sys2Proof/Machine/Configuration.lean ====
section
/-! DEFINITION. The configuration commands CONSTRUCT, REG2, REG4 and SET_SPEED (40_configuration.md R67 to R73). -/

namespace Sys2Proof.Machine

/-- CONSTRUCT (R67). -/
def execConstruct (capacity : Word) (s : State) : Result :=
  if capacity.toInt ≤ 0 ∨ capacity.toInt > (s.cfg.maxSlots : Int) then fail .capacityError s
  else succeed 0 { s with capacity := capacity, count := 0 }

/-- REG2 (R68, R69): "`pinC[i]`, `pinD[i]`: no value", so both are free values (log 5). -/
def execReg2 (spr pinA pinB : Word) (s : State) : Result :=
  registerMotor
    (Slot.registered spr .twoWire pinA pinB (Config.freeWord s.draws) (Config.freeWord (s.draws + 1)))
    [pinA, pinB] 2 s

/-- REG4 (R68, R70). -/
def execReg4 (spr pinA pinB pinC pinD : Word) (s : State) : Result :=
  registerMotor (Slot.registered spr .fourWire pinA pinB pinC pinD) [pinA, pinB, pinC, pinD] 0 s

/-- SET_SPEED (R71): InvalidMotorIndex before InvalidSpeed (R112); only `interval[m]` is written (D27). -/
def execSetSpeed (motor rpm : Word) (s : State) : Result :=
  if motor.toNat ≥ s.count.toNat then fail .invalidMotorIndex s
  else if rpm.toInt ≤ 0 then fail .invalidSpeed s
  else
    match s.readSlot motor.toNat with
    | none => .fault (.unregisteredSlot motor.toNat)
    | some m => succeed 0 (s.writeSlot motor.toNat { m with interval := intervalOf m.spr rpm })

end Sys2Proof.Machine
end

