-- ==== Sys2Proof/Machine/Pattern.lean ====
section
/-! DEFINITION. The pattern multiplexer and the coil output driver, EmitStepPattern (42_pattern_driver.md R98 to R106). -/

namespace Sys2Proof.Machine

/-- `level(b)`: 0 is Low and 1 is High (R9). -/
def level (b : BitVec 1) : Level := if b = 1 then .high else .low

/-- The table TWO: the levels of pinA and pinB at a phase (R100). -/
def tableTwo : Fin 4 → BitVec 1 × BitVec 1
  | 0 => (0, 1)
  | 1 => (1, 1)
  | 2 => (1, 0)
  | 3 => (0, 0)

/-- The table FOUR: the levels of pinA, pinB, pinC and pinD at a phase (R101). -/
def tableFour : Fin 4 → BitVec 1 × BitVec 1 × BitVec 1 × BitVec 1
  | 0 => (1, 0, 1, 0)
  | 1 => (0, 1, 1, 0)
  | 2 => (0, 1, 0, 1)
  | 3 => (1, 0, 0, 1)

/-- The writes of `EmitStepPattern(ph, i)` on a slot, in pin order A, B (C, D) (R99, R102). -/
def patternEvents (ph : Fin 4) (m : Slot) : List Event :=
  match m.wiring with
  | .twoWire =>
    let (a, b) := tableTwo ph
    [.sinkWrite m.pinA (level a), .sinkWrite m.pinB (level b)]
  | .fourWire =>
    let (a, b, c, d) := tableFour ph
    [.sinkWrite m.pinA (level a), .sinkWrite m.pinB (level b), .sinkWrite m.pinC (level c), .sinkWrite m.pinD (level d)]

/-- `EmitStepPattern(ph, i)`: its writes go to the sink; it writes no state of the block (R99). -/
def emitStepPattern (ph : Fin 4) (m : Slot) (s : State) : State := s.emitAll (patternEvents ph m)

end Sys2Proof.Machine
end

