-- ==== Sys2Proof/Machine/Motion.lean ====
section
/-! DEFINITION. Motion: MOVE_BY, the Evaluate action, the step-interval gate and the step (41_motion.md R83 to R96). -/

namespace Sys2Proof.Machine

/-- What the setup of a move writes in one slot: its direction and its remaining steps (R83, R84). -/
def Slot.withTarget (m : Slot) (target : Word) : Slot :=
  { m with
    direction := m.direction.afterTarget target.toInt
    remaining := absWord target.toInt }

/-- The setup loop of R83: target `k` goes to slot `k`. -/
def withTargets : List Word → List Slot → List Slot
  | [], slots => slots
  | _ :: _, [] => []
  | t :: ts, m :: slots => m.withTarget t :: withTargets ts slots

/-- MOVE_BY (R83): `N` is the number of targets. It completes at once when no slot has steps to take (R85), else the move
runs as Evaluate actions. -/
def execMoveBy (targets : List Word) (s : State) : Result :=
  if targets.length ≠ s.count.toNat then fail .argumentCountMismatch s
  else if s.slots.length < s.count.toNat then .fault (.noSuchSlot s.slots.length)
  else
    let t := { s with slots := withTargets targets s.slots }
    if t.allDone then succeed 0 t else .next { t with busy := true, scan := 0 }

/-- The slot after `Step(i, now)` (R91). -/
def Slot.stepped (m : Slot) (now : Word) : Slot :=
  { m with
    lastStep := now
    stepIndex := nextIndex m.direction m.stepIndex m.spr
    remaining := m.remaining - 1 }

/-- `Step(i, now)` (R91): the slot is written, then the pattern of the NEW index's phase is emitted. -/
def stepMotor (i : Nat) (m : Slot) (now : Word) (s : State) : State :=
  emitStepPattern (phaseOf (m.stepped now).stepIndex) (m.stepped now) (s.writeSlot i (m.stepped now))

/-- Whether the evaluation of a slot steps it: it has steps left and its gate holds at the clock sample (R87, R90). -/
def Slot.stepsAt (m : Slot) (now : Word) : Bool :=
  m.remaining != 0 && gateOpen now m.lastStep m.interval

/-- The state with the move over (R89): `busy` is cleared. -/
def State.endMove (s : State) : State := { s with busy := false }

/-- The state with the scan at slot `i` (R88). -/
def State.scanTo (s : State) (i : Nat) : State := { s with scan := BitVec.ofNat 32 i }

/-- The end of an evaluation of slot `i` (R87): completion (R89), or the scan moves on cyclically (R88). -/
def finishEvaluation (i : Nat) (s : State) : State :=
  if s.allDone then s.endMove.respond statusOk 0 else s.scanTo ((i + 1) % s.count.toNat)

/-- The Evaluate action (R87): one slot, the one at `scan`, with one clock sample. -/
def evaluate (s : State) : Result :=
  match s.readSlot s.scan.toNat with
  | none => .fault (.unregisteredSlot s.scan.toNat)
  | some m =>
    .next (finishEvaluation s.scan.toNat (if m.stepsAt s.nowMs then stepMotor s.scan.toNat m s.nowMs s else s))

end Sys2Proof.Machine
end

