-- ==== Sys2Proof/Machine/Version.lean ====
section
/-! DEFINITION. The command VERSION (43_version.md R107, R108). -/

namespace Sys2Proof.Machine

/-- VERSION (R107): responds `(OK, VERSION)` and does nothing else (R108). -/
def execVersion (s : State) : Result := succeed s.cfg.version s

end Sys2Proof.Machine
end

