-- ==== Sys2Proof/Machine/Dispatch.lean ====
section
/-! DEFINITION. The meaning of each command: one arm per constructor of Instr. -/

namespace Sys2Proof.Machine

def exec (i : Instr) (s : State) : Host.Outcome State Fault Refusal :=
  match i with
  | .construct capacity => Sys2Proof.Machine.execConstruct capacity s
  | .reg2 spr pinA pinB => Sys2Proof.Machine.execReg2 spr pinA pinB s
  | .reg4 spr pinA pinB pinC pinD => Sys2Proof.Machine.execReg4 spr pinA pinB pinC pinD s
  | .setSpeed motor rpm => Sys2Proof.Machine.execSetSpeed motor rpm s
  | .moveBy targets => Sys2Proof.Machine.execMoveBy targets s
  | .version => Sys2Proof.Machine.execVersion s

end Sys2Proof.Machine
end

