-- ==== Sys2Proof/Machine/Actions.lean ====
section
/-! DEFINITION. The actions of R10 over the state, and the environment's part of a step: which action comes next, and
how far the clock has moved before it (log 3, log 4). -/

namespace Sys2Proof.Machine

/-- What the environment does for the next action: the head of the schedule; past its end `rst` is low and the clock's
advance is a free value (log 3). -/
def State.tick (s : State) : Tick :=
  match s.schedule with
  | [] => ⟨false, Config.clockAdvance s.draws⟩
  | t :: _ => t

/-- The environment's part of a step: the clock advances (R31), and the schedule is one action shorter. -/
def State.afterTick (s : State) : State :=
  match s.schedule with
  | [] => { s with time := s.time + Config.clockAdvance s.draws, draws := s.draws + 1 }
  | t :: rest => { s with time := s.time + t.advance, schedule := rest }

/-- The next action: reset takes precedence over every other (R112, R125); while busy, Evaluate is the only other one
(R87); else the offered command is accepted (R53); an idle block that is offered nothing waits (R123). -/
def State.nextAction (s : State) : Option Action :=
  if s.tick.rst then some .reset
  else if s.busy then some .evaluate
  else
    match s.offered with
    | [] => none
    | c :: _ => some (.accept c)

/-- `Accept(cmd)` (R53, R56): the command is decoded and performed at once; an illegal one does
`fail IllegalCommand` (R60). -/
def accept (c : Command) (s : State) : Result :=
  match decode c with
  | .illegal _ => fail .illegalCommand s
  | .instr i => exec i s

/-- The state with these commands offered. -/
def State.offering (s : State) (commands : List Command) : State := { s with offered := commands }

/-- What an action does (R10). The accepted command leaves the command port. -/
def perform (a : Action) (s : State) : Result :=
  match a with
  | .accept c => accept c (s.offering s.offered.tail)
  | .evaluate => evaluate s
  | .reset => .next (resetAction s)

/-- One step: the clock moves, then the next action is performed; with none, the block waits (R123). -/
def stepOnce (s : State) : Result :=
  match s.nextAction with
  | none => .next s.afterTick
  | some a => perform a s.afterTick

/-- The command offered first, with `rst` low and the clock standing still for its action, and the block not busy. -/
def State.offerNext (s : State) (c : Command) : State :=
  { s with busy := false, offered := c :: s.offered, schedule := ⟨false, 0⟩ :: s.schedule }

end Sys2Proof.Machine
end

