-- ==== Sys2Proof/Machine/Step.lean ====
section
/-! DEFINITION. One step of the machine, and placing a command where the next step takes it. -/

namespace Sys2Proof.Machine

/-- One action of the block (R10), after the environment's part (log 3, log 4). -/
def step (s : State) : Host.Outcome State Fault Refusal := stepOnce s

/-- The state with the command of the given bits on the command port, so that the very next step accepts it: the block
fetches no program (R30), a command comes from the host (log 4). -/
def State.withFetchWord (s : State) (nbits w : Nat) : State := s.offerNext (commandOfBits nbits w)

end Sys2Proof.Machine
end

