-- ==== Sys2Proof/Machine/Assembler.lean ====
section
/-! DEFINITION. The textual syntax of commands (R62, R63): one command per line, `;` starts a comment, each mnemonic is
exactly one command. A line is a list of characters. The choices that R62 leaves open are log 11. -/

namespace Sys2Proof.Machine

/-- An operand as written (R62): a decimal integer with an optional `-`, or a hexadecimal word. -/
inductive AsmOperand where
  | decimal (v : Int)
  | hexadecimal (v : Nat)
deriving DecidableEq, Repr

/-- What a line is. -/
inductive AsmLine where
  /-- Nothing but blanks and a comment. -/
  | blank
  | command (i : Instr)
  /-- Not a line of R62's syntax. -/
  | malformed
deriving DecidableEq, Repr

/-- A blank inside a line (log 11). -/
def asmBlank (c : Char) : Bool := c == ' ' || c == '\t' || c == '\r'

/-- The value of a digit character in base 16. -/
def digitValue (c : Char) : Option Nat :=
  if '0' ≤ c ∧ c ≤ '9' then some (c.toNat - '0'.toNat)
  else if 'a' ≤ c ∧ c ≤ 'f' then some (c.toNat - 'a'.toNat + 10)
  else if 'A' ≤ c ∧ c ≤ 'F' then some (c.toNat - 'A'.toNat + 10)
  else none

/-- The number that digits of a base continue from `acc`. -/
def digitsFrom (base : Nat) : Nat → List Char → Option Nat
  | acc, [] => some acc
  | acc, c :: cs =>
    match digitValue c with
    | none => none
    | some d => if d < base then digitsFrom base (acc * base + d) cs else none

/-- A number of at least one digit. -/
def digits (base : Nat) : List Char → Option Nat
  | [] => none
  | c :: cs => digitsFrom base 0 (c :: cs)

/-- An operand (R62). -/
def parseOperand : List Char → Option AsmOperand
  | '0' :: 'x' :: cs => (digits 16 cs).map .hexadecimal
  | '-' :: cs => (digits 10 cs).map fun v : Nat => .decimal (-(v : Int))
  | cs => (digits 10 cs).map fun v : Nat => .decimal (v : Int)

/-- A signed operand: -2^31..2^31-1, encoded as its two's-complement word (R62); a hexadecimal one is the word (log 11). -/
def signedOperand : AsmOperand → Option Word
  | .decimal v => if -2 ^ 31 ≤ v ∧ v < 2 ^ 31 then some (BitVec.ofInt 32 v) else none
  | .hexadecimal v => if v < 2 ^ 32 then some (BitVec.ofNat 32 v) else none

/-- An unsigned operand: 0..2^32-1 (R62). -/
def unsignedOperand : AsmOperand → Option Word
  | .decimal v => if 0 ≤ v ∧ v < 2 ^ 32 then some (BitVec.ofInt 32 v) else none
  | .hexadecimal v => if v < 2 ^ 32 then some (BitVec.ofNat 32 v) else none

/-- The parts of a text between separators. -/
def splitAt (sep : Char) : List Char → List (List Char)
  | [] => [[]]
  | c :: cs =>
    if c = sep then [] :: splitAt sep cs
    else
      match splitAt sep cs with
      | [] => [[c]]
      | p :: ps => (c :: p) :: ps

/-- A text without the blanks at its ends. -/
def trimBlanks (cs : List Char) : List Char :=
  ((cs.dropWhile asmBlank).reverse.dropWhile asmBlank).reverse

/-- The operand list of a line: none where nothing is written, else separated by commas. -/
def parseOperands (cs : List Char) : Option (List AsmOperand) :=
  if trimBlanks cs = [] then some [] else (splitAt ',' cs).mapM fun p => parseOperand (trimBlanks p)

/-- The command of a mnemonic and its operands (R62). -/
def asmCommand (mnemonic : List Char) (ops : List AsmOperand) : Option Instr :=
  if mnemonic = "CONSTRUCT".toList then
    match ops with
    | [capacity] => (signedOperand capacity).map .construct
    | _ => none
  else if mnemonic = "REG2".toList then
    match ops with
    | [spr, a, b] => do return .reg2 (← signedOperand spr) (← unsignedOperand a) (← unsignedOperand b)
    | _ => none
  else if mnemonic = "REG4".toList then
    match ops with
    | [spr, a, b, c, d] => do
      return .reg4 (← signedOperand spr) (← unsignedOperand a) (← unsignedOperand b) (← unsignedOperand c)
        (← unsignedOperand d)
    | _ => none
  else if mnemonic = "SET_SPEED".toList then
    match ops with
    | [motor, rpm] => do return .setSpeed (← unsignedOperand motor) (← signedOperand rpm)
    | _ => none
  else if mnemonic = "MOVE_BY".toList then
    if ops.length ≤ 255 then (ops.mapM signedOperand).map .moveBy else none
  else if mnemonic = "VERSION".toList then
    match ops with
    | [] => some .version
    | _ => none
  else none

/-- One line of text (R62). -/
def assembleLine (line : List Char) : AsmLine :=
  let text := trimBlanks (line.takeWhile fun c => c != ';')
  if text = [] then .blank
  else
    let mnemonic := text.takeWhile fun c => !asmBlank c
    match parseOperands (text.drop mnemonic.length) with
    | none => .malformed
    | some ops =>
      match asmCommand mnemonic ops with
      | none => .malformed
      | some i => .command i

/-- The records of a text, one command per line, with 0 in every argument word that a line does not give (R62);
`none` where a line is malformed. -/
def assemble (cfg : Config) (text : List Char) : Option (List Command) :=
  (splitAt '\n' text).foldr
    (fun line acc =>
      match assembleLine line, acc with
      | .blank, acc => acc
      | .command i, some cs => some ((encode i).padded cfg :: cs)
      | _, _ => none)
    (some [])

/-! ### Writing commands as lines -/

/-- The character of a digit (R62). -/
def digitChar (d : Nat) : Char := if d < 10 then Char.ofNat ('0'.toNat + d) else Char.ofNat ('a'.toNat + (d - 10))

/-- The digits of a number in front of `acc`, the least significant one last; `fuel` bounds their count. -/
def numeralFrom (base : Nat) : Nat → Nat → List Char → List Char
  | 0, _, acc => acc
  | fuel + 1, n, acc =>
    if n / base = 0 then digitChar (n % base) :: acc
    else numeralFrom base fuel (n / base) (digitChar (n % base) :: acc)

/-- A number in a base, without leading zeros. -/
def numeral (base n : Nat) : List Char := numeralFrom base (n + 1) n []

/-- An operand as text: a decimal integer with a `-` where it is negative, or `0x` and hexadecimal digits (R62). -/
def operandText : AsmOperand → List Char
  | .decimal v => if v < 0 then '-' :: numeral 10 v.natAbs else numeral 10 v.natAbs
  | .hexadecimal v => '0' :: 'x' :: numeral 16 v

/-- Operands separated by commas (R62). -/
def operandsText : List AsmOperand → List Char
  | [] => []
  | [o] => operandText o
  | o :: os => operandText o ++ ',' :: ' ' :: operandsText os

/-- The line of a mnemonic with operands (R62). -/
def lineText (mnemonic : String) (ops : List AsmOperand) : List Char := mnemonic.toList ++ ' ' :: operandsText ops

/-- The mnemonic of a command (R12, R62). -/
def asmMnemonic : Instr → String
  | .construct _ => "CONSTRUCT"
  | .reg2 _ _ _ => "REG2"
  | .reg4 _ _ _ _ _ => "REG4"
  | .setSpeed _ _ => "SET_SPEED"
  | .moveBy _ => "MOVE_BY"
  | .version => "VERSION"

/-- The operands of a command in decimal: the signed ones of R58 (a) as `s32`, the others as `u32`. -/
def decimalOperands : Instr → List AsmOperand
  | .construct capacity => [.decimal capacity.toInt]
  | .reg2 spr a b => [.decimal spr.toInt, .decimal a.toNat, .decimal b.toNat]
  | .reg4 spr a b c d =>
    [.decimal spr.toInt, .decimal a.toNat, .decimal b.toNat, .decimal c.toNat, .decimal d.toNat]
  | .setSpeed motor rpm => [.decimal motor.toNat, .decimal rpm.toInt]
  | .moveBy targets => targets.map fun t => .decimal t.toInt
  | .version => []

/-- The operands of a command as hexadecimal words. -/
def hexadecimalOperands : Instr → List AsmOperand
  | .construct capacity => [.hexadecimal capacity.toNat]
  | .reg2 spr a b => [.hexadecimal spr.toNat, .hexadecimal a.toNat, .hexadecimal b.toNat]
  | .reg4 spr a b c d =>
    [.hexadecimal spr.toNat, .hexadecimal a.toNat, .hexadecimal b.toNat, .hexadecimal c.toNat, .hexadecimal d.toNat]
  | .setSpeed motor rpm => [.hexadecimal motor.toNat, .hexadecimal rpm.toNat]
  | .moveBy targets => targets.map fun t => .hexadecimal t.toNat
  | .version => []

end Sys2Proof.Machine
end

