-- ==== Sys2Proof/Machine/Ports.lean ====
section
/-! DEFINITION. The ports of R49 as a view of the state and of the events of one action. The model works at the action
level (R49: "A model works at the action level of 00_scope.md rule R10, not with these signals"); this file says what the
signals carry. -/

namespace Sys2Proof.Machine

/-- One `pin_evt` lane (R49): not valid, or kind 0 with a pin identifier, or kind 1 with a pin identifier and a level. -/
inductive PinLane where
  | idle
  | configure (id : Word)
  | write (id : Word) (level : Level)
deriving DecidableEq, Repr

/-- The output ports after an action (R49). -/
structure Outputs where
  cmdReady : Bool
  /-- `rsp_valid` with `rsp_status` and `rsp_data`; `none` where no response is presented. -/
  response : Option (BitVec 4 × Word)
  /-- Lanes 0..3. -/
  pinEvt : List PinLane
deriving DecidableEq, Repr

/-- The lane of an event (R49); a response has none. -/
def laneOf : Event → Option PinLane
  | .sinkConfigure p => some (.configure p)
  | .sinkWrite p l => some (.write p l)
  | .respond _ _ => none

/-- The response among the events of one action (R109: one response per accepted command). -/
def responseOf : List Event → Option (BitVec 4 × Word)
  | [] => none
  | .respond s d :: _ => some (s, d)
  | _ :: es => responseOf es

/-- The four lanes of the events of one action, "lane 0 is the first event in trace order" (R49). -/
def pinLanes (events : List Event) : List PinLane :=
  (events.filterMap laneOf ++ List.replicate 4 PinLane.idle).take 4

/-- The events that an action from `s` to `t` emitted: the trace only grows at its end (R33). -/
def newEvents (s t : State) : List Event := t.trace.drop s.trace.length

/-- The output ports of an action from `s` to `t` (R49). -/
def outputs (s t : State) : Outputs where
  cmdReady := t.cmdReady
  response := responseOf (newEvents s t)
  pinEvt := pinLanes (newEvents s t)

/-- `cmd_valid` (R49): the host offers a command. -/
def State.cmdValid (s : State) : Bool := !s.offered.isEmpty

/-- `cmd_hdr` and `cmd_arg[k]` of the offered command (R49). -/
def State.cmdPort (s : State) : Option Command := s.offered.head?

/-- `rst` for the next action (R49). -/
def State.rstPort (s : State) : Bool := s.tick.rst

end Sys2Proof.Machine
end

