-- ==== Sys2Proof/Safety.lean ====
section
/-! DEFINITION. What counts as a legal state and as a safe run, in the terms the statements use (R18, R20, R21, R23, R27,
R32, R109, R128). -/

namespace Sys2Proof.Machine

/-- The legal values of a registered slot: R20 (`stepIndex < spr`), R21 (`spr` in 1..2^31-1), R23 (`interval` in
0..60000), R27 (`remaining` in 0..2^31). -/
abbrev Slot.Legal (m : Slot) : Prop :=
  (1 ≤ m.spr.toNat ∧ m.spr.toNat ≤ 2 ^ 31 - 1) ∧ m.stepIndex.toNat < m.spr.toNat ∧ m.interval.toNat ≤ 60000 ∧
    m.remaining.toNat ≤ 2 ^ 31

/-- The pins of a slot, in pin order (R26, R102). -/
def Slot.pins (m : Slot) : List Word :=
  match m.wiring with
  | .twoWire => [m.pinA, m.pinB]
  | .fourWire => [m.pinA, m.pinB, m.pinC, m.pinD]

/-- The bank invariants of R18, clause by clause, and no other: `count <= capacity <= MAX_SLOTS`; R20 and R21 for every
registered slot; a busy block has a motor and scans a registered slot; an idle block has no steps left. -/
structure State.BankInvariants (s : State) : Prop where
  countLeCapacity : s.count.toNat ≤ s.capacity.toNat
  capacityLeMaxSlots : s.capacity.toNat ≤ s.cfg.maxSlots
  slotsLegal : ∀ m ∈ s.registered, m.stepIndex.toNat < m.spr.toNat ∧ 1 ≤ m.spr.toNat ∧ m.spr.toNat ≤ 2 ^ 31 - 1
  scanRegistered : s.busy = true → 1 ≤ s.count.toNat ∧ s.scan.toNat < s.count.toNat
  idleDone : s.busy = false → ∀ m ∈ s.registered, m.remaining.toNat = 0

/-- The model's invariant (log 14): the bank invariants of R18, with the ranges of R6 and R17, the size of the slot file (R19) and the sink's form. The
last clause about `busy` is read off R83 and R87: a move that is running has steps left. -/
structure State.Inv (s : State) : Prop where
  parameters : s.cfg.Legal
  fileSize : s.slots.length = s.cfg.maxSlots
  countLeCapacity : s.count.toNat ≤ s.capacity.toNat
  capacityLeMaxSlots : s.capacity.toNat ≤ s.cfg.maxSlots
  slotsLegal : ∀ m ∈ s.registered, m.Legal
  scanInFile : s.scan.toNat < s.cfg.maxSlots
  scanRegistered : s.busy = true → s.scan.toNat < s.count.toNat
  idleDone : s.busy = false → s.allDone = true
  busyActive : s.busy = true → s.allDone = false
  sinkCanonical : PinsWf s.pins

/-- Every pin of a registered slot has been configured as an output (R68, R128). -/
abbrev State.PinsConfigured (s : State) : Prop :=
  ∀ m ∈ s.registered, ∀ p ∈ m.pins, (s.pin p).mode = .output

/-- An event that the block may emit: a response has a status code of R109's table, and data 0 where it reports an
error. -/
abbrev Event.Legal : Event → Prop
  | .sinkConfigure _ => True
  | .sinkWrite _ _ => True
  | .respond status data => status.toNat ≤ 7 ∧ (status ≠ 0 → data = 0)

/-- Every event of the trace is one that the block may emit. -/
abbrev State.TraceLegal (s : State) : Prop := ∀ e ∈ s.trace, e.Legal

/-- How many argument words an operation reads (R57). -/
def operandWords : Op → Nat
  | .construct => 1
  | .reg2 => 3
  | .reg4 => 5
  | .setSpeed => 2
  | .moveBy n => n.toNat
  | .version => 0

/-- The illegal headers of R60: (a) the reserved field, (b) the operation code, (c) the operand count. -/
abbrev IllegalHeader (h : Word) : Prop :=
  headerRsv h ≠ 0 ∨ (headerOp h = 0x00 ∨ 0x07 ≤ (headerOp h).toNat) ∨
    ((headerOp h = 0x01 ∨ headerOp h = 0x02 ∨ headerOp h = 0x03 ∨ headerOp h = 0x04 ∨ headerOp h = 0x06) ∧ headerN h ≠ 0)

/-- A signed operand is in the range of R62: a decimal one in -2^31..2^31-1, a hexadecimal one a 32-bit word (log 11). -/
abbrev AsmOperand.SignedInRange : AsmOperand → Prop
  | .decimal v => -2 ^ 31 ≤ v ∧ v ≤ 2 ^ 31 - 1
  | .hexadecimal v => v ≤ 2 ^ 32 - 1

/-- An unsigned operand is in the range of R62: 0..2^32-1. -/
abbrev AsmOperand.UnsignedInRange : AsmOperand → Prop
  | .decimal v => 0 ≤ v ∧ v ≤ 2 ^ 32 - 1
  | .hexadecimal v => v ≤ 2 ^ 32 - 1

/-- The argument word of an operand in range: its two's-complement word (R62). -/
def AsmOperand.word : AsmOperand → Word
  | .decimal v => BitVec.ofInt 32 v
  | .hexadecimal v => BitVec.ofNat 32 v

/-- What a line assembles to: this command where its operands are in range, else the line is malformed. -/
def AsmLine.IsCommandWhen (l : AsmLine) (inRange : Prop) (i : Instr) : Prop :=
  (inRange → l = .command i) ∧ (¬ inRange → l = .malformed)

/-- The error that R110 gives a command in a state, the first that applies in the order of R112. -/
def errorOf (s : State) : Decoded → Option Error
  | .illegal _ => some .illegalCommand
  | .instr (.construct capacity) =>
    if capacity.toInt ≤ 0 ∨ capacity.toInt > (s.cfg.maxSlots : Int) then some .capacityError else none
  | .instr (.reg2 spr _ _) =>
    if s.count.toNat ≥ s.capacity.toNat then some .capacityExceeded
    else if spr.toInt ≤ 0 then some .invalidStepCount else none
  | .instr (.reg4 spr _ _ _ _) =>
    if s.count.toNat ≥ s.capacity.toNat then some .capacityExceeded
    else if spr.toInt ≤ 0 then some .invalidStepCount else none
  | .instr (.setSpeed motor rpm) =>
    if motor.toNat ≥ s.count.toNat then some .invalidMotorIndex
    else if rpm.toInt ≤ 0 then some .invalidSpeed else none
  | .instr (.moveBy targets) => if targets.length ≠ s.count.toNat then some .argumentCountMismatch else none
  | .instr .version => none

/-- The state after a command that did nothing but respond `(status, data)`. -/
def State.respondedOnly (s : State) (status : BitVec 4) (data : Word) : State :=
  { s with trace := s.trace ++ [.respond status data] }

/-- A run that never stops: after any number of steps the machine is in a state, with no fault and no refusal. -/
def State.RunsForever (s : State) : Prop := ∀ n, ∃ t, Sys2Proof.core.run n s = .next t

/-- The state a time later, when the clock has advanced (R31). -/
def State.later (s : State) (advance : Nat) : State := { s with time := s.time + advance }

/-- A move as a sequence of evaluations (R86): before each, the clock advances by the given amount; the sequence ends
where the move has completed, since Evaluate is enabled exactly while busy (R87). -/
def evaluations : List Nat → State → Result
  | [], s => .next s
  | a :: advances, s =>
    if s.busy then
      match evaluate (s.later a) with
      | .next t => evaluations advances t
      | .fault f => .fault f
      | .refused r => .refused r
    else .next s

end Sys2Proof.Machine
end

