-- ==== Sys2Proof/Certificates/Slice0/Obligations.lean ====
section
/-! DEFINITION. The statements for the provers, in the order of the spec's files: encoding, the step, the commands, the
responses, the motion, the pattern driver, the invariants, the whole-machine rules. -/

open Sys2Proof Sys2Proof.Machine

/-! ### Encoding (30_encoding.md) -/

/-- Decoding the record of a well-formed command gives the command back, with every operand (R50, R57, R62, R63). For a
MOVE_BY with more targets than the `MAX_ARGS` words of R50 this is the model's choice: `encode` then lists more words than
a record has (log 9). -/
def Obligations.DecodeEncodeRoundTrip : Prop :=
  ∀ (cfg : Config) (i : Instr), i.wellFormed = true →
    decode (encode i) = .instr i ∧ decode ((encode i).padded cfg) = .instr i

/-- A record that decodes to a command has that command's header, and its argument words are the command's operands:
each header word and each operand word has one meaning (R56, R57). -/
def Obligations.DecodedRecordReencodes : Prop :=
  ∀ (c : Command) (i : Instr), decode c = .instr i →
    i.wellFormed = true ∧ (encode i).hdr = c.hdr ∧
      ∀ k, k < (encode i).args.length → (encode i).arg k = c.arg k

/-- R59: the argument words that an operation does not read have no effect, and a MOVE_BY whose `N` is not `count` reads
none at all. -/
def Obligations.IgnoredArgumentWordsHaveNoEffect : Prop :=
  (∀ (c c' : Command) (o : Op) (s : State), c'.hdr = c.hdr → decodeHeader c.hdr = .op o →
      (∀ k, k < operandWords o → c'.arg k = c.arg k) → accept c' s = accept c s) ∧
  (∀ (c c' : Command) (n : BitVec 8) (s : State), c'.hdr = c.hdr → decodeHeader c.hdr = .op (.moveBy n) →
      n.toNat ≠ s.count.toNat → accept c' s = accept c s)

/-- R60: the illegal headers are exactly (a), (b) and (c), and an illegal command does `fail IllegalCommand`: the response
(7, 0) and no other effect. -/
def Obligations.IllegalHeadersFailWithIllegalCommand : Prop :=
  (∀ c : Command, IllegalHeader c.hdr ↔ ∃ why, decode c = .illegal why) ∧
  (∀ (c : Command) (s : State), IllegalHeader c.hdr → accept c s = .next (s.respondedOnly 7 0))

/-- R64: a header that decodes to an operation selects exactly that operation's row of the opcode map, and a header that
is illegal selects none. -/
def Obligations.OpcodeMapSelectsOneRow : Prop :=
  (∀ (h : Word) (o : Op), decodeHeader h = .op o →
      (opcodeMap.filter fun r => r.selectedBy h).map OpRow.mnemonic = [o.mnemonic]) ∧
  (∀ (h : Word) (why : Illegal), decodeHeader h = .illegal why → ∀ r ∈ opcodeMap, r.selectedBy h = false)

/-- A few header words written out from R64, V-DEC and P1 decode to the commands they stand for. -/
def Obligations.SpecHeaderWordsDecode : Prop :=
  decode ⟨0x00000001, [0x00000002]⟩ = .instr (.construct 2) ∧
  decode ⟨0x00000002, [0x000000C8, 0x00000008, 0x00000009]⟩ = .instr (.reg2 200 8 9) ∧
  decode ⟨0x00000003, [0x000000C8, 2, 3, 4, 5]⟩ = .instr (.reg4 200 2 3 4 5) ∧
  decode ⟨0x00000004, [0x00000001, 0x0000003C]⟩ = .instr (.setSpeed 1 60) ∧
  decode ⟨0x00000205, [0x00000004, 0xFFFFFFFE]⟩ = .instr (.moveBy [4, 0xFFFFFFFE]) ∧
  decode ⟨0x00000006, []⟩ = .instr .version ∧
  decode ⟨0x00000007, []⟩ = .illegal .opcode ∧
  decode ⟨0x00000101, []⟩ = .illegal .operandCount ∧
  decode ⟨0x80000005, []⟩ = .illegal .reservedField

/-- The textual syntax (R62): only well-formed commands come out of a line; the line written for a well-formed command, its
operands in decimal or in hexadecimal, with a comment or none, assembles to exactly that command; and for each mnemonic
an operand out of its range, or another number of operands, makes the line malformed. How a line is cut into parts, and
that a hexadecimal operand is the word also where the operand is signed, are the model's choice (log 11). -/
def Obligations.LinesAssembleToTheirCommands : Prop :=
  (∀ (line : List Char) (i : Instr), assembleLine line = .command i → i.wellFormed = true) ∧
  ∀ tail : List Char, (tail = [] ∨ ∃ comment, tail = ';' :: comment) →
    (∀ i : Instr, i.wellFormed = true →
      assembleLine (lineText (asmMnemonic i) (decimalOperands i) ++ tail) = .command i ∧
      assembleLine (lineText (asmMnemonic i) (hexadecimalOperands i) ++ tail) = .command i) ∧
    (∀ cap : AsmOperand, (assembleLine (lineText "CONSTRUCT" [cap] ++ tail)).IsCommandWhen
      cap.SignedInRange (.construct cap.word)) ∧
    (∀ spr a b : AsmOperand, (assembleLine (lineText "REG2" [spr, a, b] ++ tail)).IsCommandWhen
      (spr.SignedInRange ∧ a.UnsignedInRange ∧ b.UnsignedInRange) (.reg2 spr.word a.word b.word)) ∧
    (∀ spr a b c d : AsmOperand, (assembleLine (lineText "REG4" [spr, a, b, c, d] ++ tail)).IsCommandWhen
      (spr.SignedInRange ∧ a.UnsignedInRange ∧ b.UnsignedInRange ∧ c.UnsignedInRange ∧ d.UnsignedInRange)
      (.reg4 spr.word a.word b.word c.word d.word)) ∧
    (∀ motor rpm : AsmOperand, (assembleLine (lineText "SET_SPEED" [motor, rpm] ++ tail)).IsCommandWhen
      (motor.UnsignedInRange ∧ rpm.SignedInRange) (.setSpeed motor.word rpm.word)) ∧
    (∀ ts : List AsmOperand, (assembleLine (lineText "MOVE_BY" ts ++ tail)).IsCommandWhen
      (ts.length ≤ 255 ∧ ∀ t ∈ ts, t.SignedInRange) (.moveBy (ts.map AsmOperand.word))) ∧
    assembleLine (lineText "VERSION" [] ++ tail) = .command .version ∧
    (∀ (mnemonic : String) (n : Nat) (ops : List AsmOperand),
      (mnemonic, n) ∈ [("CONSTRUCT", 1), ("REG2", 3), ("REG4", 5), ("SET_SPEED", 2), ("VERSION", 0)] → ops.length ≠ n →
        assembleLine (lineText mnemonic ops ++ tail) = .malformed)

/-! ### The step (R10, R53, R87, R112, R125) -/

/-- A step accepts the offered record, whatever it decodes to, when `rst` is low and the block is not busy: it runs the
meaning of a record that decodes to `i`, and a record with an illegal header responds (7, 0) and does nothing else (R60).
Around that, the step lets the clock advance and takes the command off the port. (How the environment's choices stand in
State is the model's: log 3, log 4.) -/
def Obligations.StepRunsTheDecodedCommand : Prop :=
  ∀ (s : State) (c : Command) (rest : List Command), s.tick.rst = false → s.busy = false → s.offered = c :: rest →
    step s = accept c (s.afterTick.offering rest) ∧ s.afterTick.time = s.time + s.tick.advance ∧
    (∀ i, decode c = .instr i → step s = exec i (s.afterTick.offering rest)) ∧
    (IllegalHeader c.hdr → step s = .next ((s.afterTick.offering rest).respondedOnly 7 0))

/-- While busy and without reset, a step is the Evaluate action and no command is accepted: the offered commands wait
(R53, R87). -/
def Obligations.BusyBlockEvaluatesAndAcceptsNothing : Prop :=
  ∀ s : State, s.tick.rst = false → s.busy = true →
    step s = evaluate s.afterTick ∧ ∀ t, step s = .next t → t.offered = s.offered

/-- An idle block that is offered nothing waits: only the environment moves (R123). -/
def Obligations.IdleBlockWaits : Prop :=
  ∀ s : State, s.tick.rst = false → s.busy = false → s.offered = [] →
    ∃ t, step s = .next t ∧ t.capacity = s.capacity ∧ t.count = s.count ∧ t.busy = false ∧ t.scan = s.scan ∧
      t.slots = s.slots ∧ t.pins = s.pins ∧ t.trace = s.trace ∧ t.offered = [] ∧ t.cfg = s.cfg

/-- R125 and R126: while `rst` is asserted, whatever the block was doing, the bank registers become 0, no slot is
registered, no event is emitted, the sink keeps its content and nothing is accepted; after release the next command is
accepted. -/
def Obligations.ResetAbandonsEverything : Prop :=
  ∀ s : State, s.tick.rst = true →
    ∃ t, step s = .next t ∧ t.capacity = 0 ∧ t.count = 0 ∧ t.busy = false ∧ t.scan = 0 ∧ t.registered = [] ∧
      t.trace = s.trace ∧ t.pins = s.pins ∧ t.offered = s.offered ∧ t.cfg = s.cfg ∧
      t.time = s.time + s.tick.advance ∧
      (∀ c rest, t.tick.rst = false → s.offered = c :: rest → step t = accept c (t.afterTick.offering rest))

/-- R37, for the values that the spec states: the bank registers are 0, no slot is registered and the trace is empty, for
every value of the parameters and of the clock; `State.reset` is one of these states. -/
def Obligations.ResetStateHoldsTheStatedValues : Prop :=
  (∀ (cfg : Config) (time : Nat),
    (State.resetFor cfg time).capacity = 0 ∧ (State.resetFor cfg time).count = 0 ∧
      (State.resetFor cfg time).busy = false ∧ (State.resetFor cfg time).scan = 0 ∧
      (State.resetFor cfg time).registered = [] ∧ (State.resetFor cfg time).trace = []) ∧
  ∃ cfg time, cfg.Legal ∧ State.reset = State.resetFor cfg time

/-! ### The configuration commands and VERSION (40_configuration.md, 43_version.md) -/

/-- R67: CONSTRUCT with a capacity in 1..MAX_SLOTS sets `capacity`, empties the bank and responds (0, 0); with any other
it responds (1, 0). Nothing else changes either way. Its record is the header 0x00000001 with the capacity in `A[0]`. -/
def Obligations.ConstructMakesAnEmptyBank : Prop :=
  (∀ c : Command, c.hdr = 0x00000001 → decode c = .instr (.construct (c.arg 0))) ∧
  ∀ (cap : Word) (s : State),
    (0 < cap.toInt → cap.toInt ≤ (s.cfg.maxSlots : Int) →
      exec (.construct cap) s =
        .next { s with capacity := cap, count := 0, trace := s.trace ++ [.respond 0 0] }) ∧
    (cap.toInt ≤ 0 ∨ (s.cfg.maxSlots : Int) < cap.toInt → exec (.construct cap) s = .next (s.respondedOnly 1 0))

/-- R69: REG2 with a free slot and a positive step count fills slot `count`, configures pins A and B, adds one to `count`
and responds with the slot's number; else it fails, CapacityExceeded first. `pinC` and `pinD` take some value. Its
record is the header 0x00000002 with the operands in `A[0]` to `A[2]`. -/
def Obligations.Reg2RegistersATwoWireMotor : Prop :=
  (∀ c : Command, c.hdr = 0x00000002 → decode c = .instr (.reg2 (c.arg 0) (c.arg 1) (c.arg 2))) ∧
  ∀ (spr pinA pinB : Word) (s : State),
    (s.count.toNat < s.capacity.toNat → 0 < spr.toInt → s.count.toNat < s.slots.length → PinsWf s.pins →
      ∃ t pinC pinD, exec (.reg2 spr pinA pinB) s = .next t ∧
        t.slots[s.count.toNat]? = some
          { stepIndex := 0, spr := spr, direction := .forward, interval := 0, lastStep := 0, wiring := .twoWire,
            pinA := pinA, pinB := pinB, pinC := pinC, pinD := pinD, remaining := 0 } ∧
        (∀ j, j ≠ s.count.toNat → t.slots[j]? = s.slots[j]?) ∧ t.slots.length = s.slots.length ∧
        t.count.toNat = s.count.toNat + 1 ∧
        t.trace = s.trace ++ [.sinkConfigure pinA, .sinkConfigure pinB, .respond 0 s.count] ∧
        (∀ p, t.pin p = if p = pinA ∨ p = pinB then { mode := .output, level := (s.pin p).level } else s.pin p) ∧
        t.cfg = s.cfg ∧ t.capacity = s.capacity ∧ t.busy = s.busy ∧ t.scan = s.scan ∧ t.time = s.time ∧
        t.offered = s.offered ∧ t.schedule = s.schedule) ∧
    (s.capacity.toNat ≤ s.count.toNat → exec (.reg2 spr pinA pinB) s = .next (s.respondedOnly 2 0)) ∧
    (s.count.toNat < s.capacity.toNat → spr.toInt ≤ 0 → exec (.reg2 spr pinA pinB) s = .next (s.respondedOnly 3 0))

/-- R70: REG4, as REG2 with four pins, each kept in the slot and configured in order A, B, C, D. Its record is the header
0x00000003 with the operands in `A[0]` to `A[4]`. -/
def Obligations.Reg4RegistersAFourWireMotor : Prop :=
  (∀ c : Command, c.hdr = 0x00000003 →
    decode c = .instr (.reg4 (c.arg 0) (c.arg 1) (c.arg 2) (c.arg 3) (c.arg 4))) ∧
  ∀ (spr pinA pinB pinC pinD : Word) (s : State),
    (s.count.toNat < s.capacity.toNat → 0 < spr.toInt → s.count.toNat < s.slots.length → PinsWf s.pins →
      ∃ t, exec (.reg4 spr pinA pinB pinC pinD) s = .next t ∧
        t.slots[s.count.toNat]? = some
          { stepIndex := 0, spr := spr, direction := .forward, interval := 0, lastStep := 0, wiring := .fourWire,
            pinA := pinA, pinB := pinB, pinC := pinC, pinD := pinD, remaining := 0 } ∧
        (∀ j, j ≠ s.count.toNat → t.slots[j]? = s.slots[j]?) ∧ t.slots.length = s.slots.length ∧
        t.count.toNat = s.count.toNat + 1 ∧
        t.trace = s.trace ++ [.sinkConfigure pinA, .sinkConfigure pinB, .sinkConfigure pinC, .sinkConfigure pinD,
          .respond 0 s.count] ∧
        (∀ p, t.pin p =
          if p = pinA ∨ p = pinB ∨ p = pinC ∨ p = pinD then { mode := .output, level := (s.pin p).level } else s.pin p) ∧
        t.cfg = s.cfg ∧ t.capacity = s.capacity ∧ t.busy = s.busy ∧ t.scan = s.scan ∧ t.time = s.time ∧
        t.offered = s.offered ∧ t.schedule = s.schedule ∧ t.draws = s.draws) ∧
    (s.capacity.toNat ≤ s.count.toNat → exec (.reg4 spr pinA pinB pinC pinD) s = .next (s.respondedOnly 2 0)) ∧
    (s.count.toNat < s.capacity.toNat → spr.toInt ≤ 0 →
      exec (.reg4 spr pinA pinB pinC pinD) s = .next (s.respondedOnly 3 0))

/-- R71: SET_SPEED of a registered motor with a positive rpm writes only that slot's interval, `60000 div (spr * rpm)`, and
responds (0, 0); else it fails, InvalidMotorIndex first. Its record is the header 0x00000004 with the motor in `A[0]` and the
rpm in `A[1]`. -/
def Obligations.SetSpeedWritesTheInterval : Prop :=
  (∀ c : Command, c.hdr = 0x00000004 → decode c = .instr (.setSpeed (c.arg 0) (c.arg 1))) ∧
  ∀ (motor rpm : Word) (s : State),
    (∀ m, motor.toNat < s.count.toNat → 0 < rpm.toInt → s.slots[motor.toNat]? = some m → 1 ≤ m.spr.toNat →
      ∃ w : Word, (w.toNat : Int) = 60000 / ((m.spr.toNat : Int) * rpm.toInt) ∧
        exec (.setSpeed motor rpm) s =
          .next { s with
                  slots := s.slots.set motor.toNat { m with interval := w },
                  trace := s.trace ++ [.respond 0 0] }) ∧
    (s.count.toNat ≤ motor.toNat → exec (.setSpeed motor rpm) s = .next (s.respondedOnly 6 0)) ∧
    (motor.toNat < s.count.toNat → rpm.toInt ≤ 0 → exec (.setSpeed motor rpm) s = .next (s.respondedOnly 4 0))

/-- R72: for `S` and `R` in 1..2^31-1 the interval is the exact floor of `60000 / (S * R)`, with no wrap of the product,
and lies in 0..60000. -/
def Obligations.IntervalIsTheExactQuotient : Prop :=
  ∀ S R : Word, 1 ≤ S.toNat → S.toNat ≤ 2 ^ 31 - 1 → 1 ≤ R.toNat → R.toNat ≤ 2 ^ 31 - 1 →
    (intervalOf S R).toNat * (S.toNat * R.toNat) ≤ 60000 ∧ 60000 < ((intervalOf S R).toNat + 1) * (S.toNat * R.toNat) ∧
      (intervalOf S R).toNat ≤ 60000

/-- R107 and R108: VERSION responds (0, VERSION) in every state and does nothing else. Its record is the header 0x00000006,
whatever the argument words. -/
def Obligations.VersionReportsTheParameter : Prop :=
  (∀ c : Command, c.hdr = 0x00000006 → decode c = .instr .version) ∧
  ∀ s : State, exec .version s = .next (s.respondedOnly 0 s.cfg.version)

/-! ### MOVE_BY (41_motion.md) -/

/-- R83, R84 and R85: MOVE_BY with one target per registered motor sets each direction from the target's sign (unchanged
for 0) and each remaining counter to the exact absolute value; it responds at once when every target is 0, else it sets
`busy` and `scan` and emits nothing. With another number of targets it responds (5, 0). Nothing else changes. Its record is the header
`(0x0000, N, 0x05)` with target `k` in `A[k]`. -/
def Obligations.MoveBySetsUpTheMove : Prop :=
  (∀ (c : Command) (n : BitVec 8), c.hdr = 0x0000#16 ++ n ++ 0x05#8 →
    decode c = .instr (.moveBy ((List.range n.toNat).map c.arg))) ∧
  ∀ (targets : List Word) (s : State),
    (targets.length = s.count.toNat → s.count.toNat ≤ s.slots.length →
      ∃ t, exec (.moveBy targets) s = .next t ∧
        (∀ (k : Nat) (m : Slot) (target : Word), s.slots[k]? = some m → targets[k]? = some target →
          ∃ w : Word, (w.toNat : Int) = |target.toInt| ∧
            t.slots[k]? = some
              { m with
                direction :=
                  if target.toInt > 0 then .forward else if target.toInt < 0 then .backward else m.direction,
                remaining := w }) ∧
        (∀ k, targets.length ≤ k → t.slots[k]? = s.slots[k]?) ∧ t.slots.length = s.slots.length ∧
        (if ∀ target ∈ targets, target.toInt = 0 then
          t.busy = s.busy ∧ t.scan = s.scan ∧ t.trace = s.trace ++ [.respond 0 0]
        else t.busy = true ∧ t.scan = 0 ∧ t.trace = s.trace) ∧
        t.cfg = s.cfg ∧ t.capacity = s.capacity ∧ t.count = s.count ∧ t.time = s.time ∧ t.pins = s.pins ∧
        t.offered = s.offered ∧ t.schedule = s.schedule ∧ t.draws = s.draws) ∧
    (targets.length ≠ s.count.toNat → exec (.moveBy targets) s = .next (s.respondedOnly 5 0))

/-! ### Errors and responses (60_exceptions.md) -/

/-- R110 and R112: each error is raised by exactly the commands and causes of the catalogue, the first that applies in
the order of R112; a command to which no error applies answers no error; and reset goes before every action. -/
def Obligations.ErrorsFollowTheCatalogue : Prop :=
  (∀ (c : Command) (s : State) (e : Error), errorOf s (decode c) = some e →
      accept c s = .next (s.respondedOnly e.code 0)) ∧
  (∀ (c : Command) (s t : State) (status : BitVec 4) (data : Word), errorOf s (decode c) = none →
      accept c s = .next t → .respond status data ∈ newEvents s t → status = 0) ∧
  (∀ s t : State, evaluate s = .next t → ∀ status data, .respond status data ∈ newEvents s t → status = 0) ∧
  (∀ s : State, s.tick.rst = true → s.nextAction = some .reset)

/-- R111: a command whose response reports an error writes no state and emits no event but its response. -/
def Obligations.ErrorsAreAllOrNothing : Prop :=
  ∀ (c : Command) (s t : State) (status : BitVec 4) (data : Word), accept c s = .next t →
    .respond status data ∈ newEvents s t → status ≠ 0 → t = s.respondedOnly status 0 ∧ data = 0

/-- Every accepted command responds exactly once, as the last event of its action, unless it starts a move; then it emits
nothing, and the evaluation that completes the move emits the one response, (0, 0), as the move's last event (R45, R89,
R109). -/
def Obligations.OneResponsePerCommand : Prop :=
  (∀ (c : Command) (s t : State), s.busy = false → accept c s = .next t →
    (t.busy = false ∧ ∃ evs status data, t.trace = s.trace ++ evs ++ [.respond status data] ∧ responseOf evs = none) ∨
      (t.busy = true ∧ t.trace = s.trace)) ∧
  (∀ s t : State, s.busy = true → evaluate s = .next t →
    ∃ evs, responseOf evs = none ∧
      ((t.busy = false ∧ t.trace = s.trace ++ evs ++ [.respond 0 0]) ∨ (t.busy = true ∧ t.trace = s.trace ++ evs)))

/-- Every step keeps this: a response has a status in 0..7, and data 0 where it reports an error (R109, U15). -/
def Obligations.ResponsesStayInTheStatusTable : Prop :=
  ∀ s t : State, s.TraceLegal → step s = .next t → t.TraceLegal

/-! ### The evaluation, the gate and the step (41_motion.md) -/

/-- R90: the gate compares the elapsed time modulo 2^32 with the interval, unsigned; while fewer than 2^32 ms have passed,
that is the true elapsed time, across a wrap of the clock too. -/
def Obligations.GateComparesElapsedTimeModulo : Prop :=
  (∀ now last interval : Word,
    gateOpen now last interval = true ↔ (interval.toNat : Int) ≤ ((now.toNat : Int) - last.toNat) % 2 ^ 32) ∧
  (∀ (T₁ T : Nat) (interval : Word), T₁ ≤ T → T - T₁ < 2 ^ 32 →
    (gateOpen (BitVec.ofNat 32 T) (BitVec.ofNat 32 T₁) interval = true ↔ interval.toNat ≤ T - T₁))

/-- Whatever time has passed since a slot's last step, also 2^32 ms or more, the gate holds it back by at most its interval:
it is open now or at some time at most `interval` ms later (a bound that follows from R90, part of what R130 says). -/
def Obligations.GateHoldsBackByAtMostTheInterval : Prop :=
  ∀ (T₁ T : Nat) (interval : Word), T₁ ≤ T →
    ∃ d, d ≤ interval.toNat ∧ gateOpen (BitVec.ofNat 32 (T + d)) (BitVec.ofNat 32 T₁) interval = true

/-- The first step of a motor that has not stepped since its registration: it waits until the clock sample itself reaches
the interval, and it drives phase 1 Forward (phase 0 where `spr` is 1) and phase `(spr - 1) mod 4` Backward (R92, R106, R134). -/
def Obligations.FirstStepOfARegisteredMotor : Prop :=
  ∀ (s : State) (spr interval remaining pinA pinB pinC pinD : Word) (w : Wiring) (d : Direction) (m : Slot),
    m = { Slot.registered spr w pinA pinB pinC pinD with interval := interval, direction := d, remaining := remaining } →
    s.scan.toNat < s.count.toNat → s.slots[s.scan.toNat]? = some m → 1 ≤ spr.toNat → 1 ≤ remaining.toNat →
      ∃ t, evaluate s = .next t ∧
        (if interval.toNat ≤ s.time % 2 ^ 32 then
          ∃ ph : Fin 4, (newEvents s t).filter (fun e => e != .respond 0 0) = patternEvents ph m ∧
            ph.val = (match d with
              | .forward => if spr = 1 then 0 else 1
              | .backward => (spr.toNat - 1) % 4)
        else newEvents s t = [] ∧ t.slots = s.slots)

/-- R87, R90 and R91: an evaluation of slot `scan` steps the slot exactly when it has steps left and its gate holds at the
clock sample: it writes the sample, moves the index by one modulo `spr`, takes one from `remaining` and emits the pattern
of the new phase. Then the move completes if every counter is 0, else the scan moves on. Nothing else changes. -/
def Obligations.EvaluateStepsOneSlot : Prop :=
  ∀ (s : State) (m : Slot), s.scan.toNat < s.count.toNat → s.slots[s.scan.toNat]? = some m → m.stepIndex.toNat < m.spr.toNat →
    ∃ (t : State) (m' : Slot) (writes : List Event), evaluate s = .next t ∧
      t.slots = s.slots.set s.scan.toNat m' ∧
      (if 0 < m.remaining.toNat ∧ m.interval.toNat ≤ (s.nowMs - m.lastStep).toNat then
        m' = { m with lastStep := s.nowMs, stepIndex := m'.stepIndex, remaining := m'.remaining } ∧
        (m'.stepIndex.toNat : Int) =
          (m.stepIndex.toNat + (if m.direction = .forward then 1 else -1)) % m.spr.toNat ∧
        m'.remaining.toNat + 1 = m.remaining.toNat ∧
        writes = patternEvents (phaseOf m'.stepIndex) m
      else m' = m ∧ writes = []) ∧
      (if ∀ n ∈ t.registered, n.remaining.toNat = 0 then
        t.busy = false ∧ t.scan = s.scan ∧ t.trace = s.trace ++ writes ++ [.respond 0 0]
      else t.busy = s.busy ∧ t.scan.toNat = (s.scan.toNat + 1) % s.count.toNat ∧ t.trace = s.trace ++ writes) ∧
      t.pins = writes.foldl sinkAfter s.pins ∧ t.cfg = s.cfg ∧ t.capacity = s.capacity ∧ t.count = s.count ∧
      t.time = s.time ∧ t.offered = s.offered ∧ t.schedule = s.schedule ∧ t.draws = s.draws

/-- R92: the index wraps at both ends and stays below `spr`; with `spr = 1` it stays 0; with `spr = 6`, Forward from 4, the
phases are 1, 0, 1. For every `spr` that is no multiple of 4 the phase sequence breaks at the wrap, in both directions
(R135). -/
def Obligations.StepIndexWrapsModuloSpr : Prop :=
  (∀ idx spr : Word, idx.toNat < spr.toNat →
    (nextIndex .forward idx spr).toNat = (if idx.toNat + 1 = spr.toNat then 0 else idx.toNat + 1) ∧
    (nextIndex .backward idx spr).toNat = (if idx.toNat = 0 then spr.toNat - 1 else idx.toNat - 1) ∧
    (∀ d, (nextIndex d idx spr).toNat < spr.toNat)) ∧
  (∀ d, nextIndex d 0 1 = 0 ∧ phaseOf (nextIndex d 0 1) = 0) ∧
  (nextIndex .forward 4 6 = 5 ∧ nextIndex .forward 5 6 = 0 ∧ nextIndex .forward 0 6 = 1 ∧
    phaseOf 5 = 1 ∧ phaseOf 0 = 0 ∧ phaseOf 1 = 1) ∧
  (∀ idx spr : Word, idx.toNat < spr.toNat → spr.toNat % 4 ≠ 0 →
    (idx.toNat + 1 = spr.toNat → phaseOf (nextIndex .forward idx spr) ≠ phaseOf idx + 1) ∧
    (idx.toNat = 0 → phaseOf (nextIndex .backward idx spr) ≠ phaseOf idx - 1))

/-- R73: a slot whose interval is 0 steps at every evaluation, whatever the clock; a registration and a SET_SPEED with
`spr * rpm > 60000` both give the interval 0. -/
def Obligations.IntervalZeroFreeRuns : Prop :=
  (∀ (s : State) (m : Slot), s.scan.toNat < s.count.toNat → s.slots[s.scan.toNat]? = some m → m.interval = 0 →
    0 < m.remaining.toNat →
      ∃ t m', evaluate s = .next t ∧ t.slots[s.scan.toNat]? = some m' ∧ m'.remaining.toNat + 1 = m.remaining.toNat ∧
        m'.lastStep = s.nowMs) ∧
  (∀ spr rpm : Word, 60000 < spr.toNat * rpm.toNat → intervalOf spr rpm = 0) ∧
  (∀ (spr : Word) (w : Wiring) (a b c d : Word), (Slot.registered spr w a b c d).interval = 0)

/-- R94: whether an evaluation steps its slot depends only on the slot's own `remaining`, `lastStep` and `interval` and on the
clock sample: of two evaluations that agree on these, whatever else differs, both step the slot or neither does. What it
does to the slot depends only on the slot's own fields and on the sample, so however different the other motors are. And a
motor that has finished stays idle: its evaluation changes no slot and writes no pin. -/
def Obligations.MotorsDoNotDelayEachOther : Prop :=
  (∀ (s s' t t' : State) (m m' n n' : Slot), evaluate s = .next t → evaluate s' = .next t' →
    s.slots[s.scan.toNat]? = some m → s'.slots[s'.scan.toNat]? = some m' →
    t.slots[s.scan.toNat]? = some n → t'.slots[s'.scan.toNat]? = some n' →
    m'.remaining = m.remaining → m'.lastStep = m.lastStep → m'.interval = m.interval → s'.nowMs = s.nowMs →
      (n.remaining.toNat + 1 = m.remaining.toNat ∧ n'.remaining.toNat + 1 = m'.remaining.toNat) ∨ (n = m ∧ n' = m')) ∧
  (∀ s s' t t' : State, s'.scan = s.scan → s'.nowMs = s.nowMs → s'.slots[s.scan.toNat]? = s.slots[s.scan.toNat]? →
    evaluate s = .next t → evaluate s' = .next t' → t'.slots[s.scan.toNat]? = t.slots[s.scan.toNat]?) ∧
  (∀ (s t : State) (m : Slot), evaluate s = .next t → s.slots[s.scan.toNat]? = some m → m.remaining.toNat = 0 →
    t.slots = s.slots ∧ t.pins = s.pins ∧ ∀ e ∈ newEvents s t, e = .respond 0 0)

/-- Two consecutive steps of a slot take clock samples at least its interval apart: if the slot's last step took the
sample of time `T₁` and an evaluation fewer than 2^32 ms later steps it, the interval has passed (R95). -/
def Obligations.StepsKeepTheirInterval : Prop :=
  ∀ (s t : State) (m m' : Slot) (T₁ : Nat), evaluate s = .next t → s.slots[s.scan.toNat]? = some m →
    t.slots[s.scan.toNat]? = some m' → m'.remaining ≠ m.remaining → m.lastStep = BitVec.ofNat 32 T₁ → T₁ ≤ s.time →
      s.time - T₁ < 2 ^ 32 → m.interval.toNat ≤ s.time - T₁ ∧ m'.lastStep = BitVec.ofNat 32 s.time

/-- A move that has completed has moved each motor by exactly its target: the index is `(s0 + t) mod spr`, the direction is
the target's, no steps remain, and a motor with target 0 keeps its last-step time (R93). -/
def Obligations.CompletedMoveDisplacesByTheTarget : Prop :=
  ∀ (s t u : State) (targets : List Word) (advances : List Nat), s.Inv → s.busy = false →
    targets.length = s.count.toNat → exec (.moveBy targets) s = .next t → evaluations advances t = .next u →
    u.busy = false →
      ∀ (k : Nat) (m : Slot) (target : Word), s.slots[k]? = some m → targets[k]? = some target →
        ∃ m', u.slots[k]? = some m' ∧ (m'.stepIndex.toNat : Int) = (m.stepIndex.toNat + target.toInt) % m.spr.toNat ∧
          m'.remaining = 0 ∧ (0 < target.toInt → m'.direction = .forward) ∧ (target.toInt < 0 → m'.direction = .backward) ∧
          (target.toInt = 0 → m'.direction = m.direction ∧ m'.lastStep = m.lastStep)

/-- A step leaves a running move only by reset or by completing it: then no counter is left and the last event is the
move's response (0, 0) (R96). -/
def Obligations.MoveEndsOnlyByCompletionOrReset : Prop :=
  ∀ s t : State, s.busy = true → step s = .next t → t.busy = false →
    s.tick.rst = true ∨ ((∀ m ∈ t.registered, m.remaining = 0) ∧ t.trace.getLast? = some (.respond 0 0))

/-- With a stalled clock, a move whose active slots all wait on their gates hangs: after any number of evaluations it is
still running, with no slot changed and no event emitted (R96, R132). -/
def Obligations.StalledClockHangsTheMove : Prop :=
  ∀ (s : State) (n : Nat), s.Inv → s.busy = true →
    (∀ m ∈ s.registered, m.remaining ≠ 0 → gateOpen s.nowMs m.lastStep m.interval = false) →
      ∃ u, evaluations (List.replicate n 0) s = .next u ∧ u.busy = true ∧ u.slots = s.slots ∧ u.trace = s.trace ∧
        u.pins = s.pins ∧ u.time = s.time

/-- R140: under (a) evaluations that keep happening, (b) a time that grows without bound and (c) less than 2^32 - 60000 ms
between two evaluations of the same slot, every move completes, with its response as the last event. -/
def Obligations.EveryMoveCompletesUnderFairness : Prop :=
  ∀ (s : State) (advance : Nat → Nat), s.Inv → s.busy = true →
    (∀ bound, ∃ n, bound ≤ ((List.range n).map advance).sum) →
    (∀ k, ((List.range s.count.toNat).map fun j => advance (k + 1 + j)).sum < 2 ^ 32 - 60000) →
      ∃ n u, evaluations ((List.range n).map advance) s = .next u ∧ u.busy = false ∧
        u.trace.getLast? = some (.respond 0 0)

/-! ### The pattern driver and the sink (42_pattern_driver.md, R32) -/

/-- R99, R100 and R101: the writes of each phase, for both wirings, pin by pin in the order A, B (C, D). -/
def Obligations.PatternTablesDriveThePins : Prop :=
  ∀ (m : Slot) (s : State),
    (m.wiring = .twoWire →
      (emitStepPattern 0 m s).trace = s.trace ++ [.sinkWrite m.pinA .low, .sinkWrite m.pinB .high] ∧
      (emitStepPattern 1 m s).trace = s.trace ++ [.sinkWrite m.pinA .high, .sinkWrite m.pinB .high] ∧
      (emitStepPattern 2 m s).trace = s.trace ++ [.sinkWrite m.pinA .high, .sinkWrite m.pinB .low] ∧
      (emitStepPattern 3 m s).trace = s.trace ++ [.sinkWrite m.pinA .low, .sinkWrite m.pinB .low]) ∧
    (m.wiring = .fourWire →
      (emitStepPattern 0 m s).trace = s.trace ++
        [.sinkWrite m.pinA .high, .sinkWrite m.pinB .low, .sinkWrite m.pinC .high, .sinkWrite m.pinD .low] ∧
      (emitStepPattern 1 m s).trace = s.trace ++
        [.sinkWrite m.pinA .low, .sinkWrite m.pinB .high, .sinkWrite m.pinC .high, .sinkWrite m.pinD .low] ∧
      (emitStepPattern 2 m s).trace = s.trace ++
        [.sinkWrite m.pinA .low, .sinkWrite m.pinB .high, .sinkWrite m.pinC .low, .sinkWrite m.pinD .high] ∧
      (emitStepPattern 3 m s).trace = s.trace ++
        [.sinkWrite m.pinA .high, .sinkWrite m.pinB .low, .sinkWrite m.pinC .low, .sinkWrite m.pinD .high]) ∧
    (∀ ph, (emitStepPattern ph m s).slots = s.slots ∧ (emitStepPattern ph m s).busy = s.busy ∧
      (emitStepPattern ph m s).count = s.count ∧ (emitStepPattern ph m s).capacity = s.capacity ∧
      (emitStepPattern ph m s).scan = s.scan ∧ (emitStepPattern ph m s).time = s.time)

/-- R103: the pattern depends only on the phase, the wiring and the slot's own pins. -/
def Obligations.PatternIsPure : Prop :=
  ∀ (ph : Fin 4) (m m' : Slot), m'.wiring = m.wiring → m'.pins = m.pins → patternEvents ph m' = patternEvents ph m

/-- R104: in FOUR, B is NOT A and D is NOT C; TWO's (A, B) is FOUR's (B, C); adjacent phases differ in one line of TWO and in
one complementary pair of FOUR, A and B between 0-1 and 2-3, C and D between 1-2 and 3-0; Forward steps go up one phase and
Backward steps down one, except where the index wraps and `spr` is no multiple of 4. -/
def Obligations.PatternTableStructure : Prop :=
  (∀ ph, (tableFour ph).2.1 = ~~~(tableFour ph).1 ∧ (tableFour ph).2.2.2 = ~~~(tableFour ph).2.2.1 ∧
    tableTwo ph = ((tableFour ph).2.1, (tableFour ph).2.2.1) ∧
    ((tableTwo (ph + 1)).1 = (tableTwo ph).1 ↔ (tableTwo (ph + 1)).2 ≠ (tableTwo ph).2) ∧
    (if ph = 0 ∨ ph = 2 then
      (tableFour (ph + 1)).1 ≠ (tableFour ph).1 ∧ (tableFour (ph + 1)).2.1 ≠ (tableFour ph).2.1 ∧
        (tableFour (ph + 1)).2.2 = (tableFour ph).2.2
    else
      (tableFour (ph + 1)).1 = (tableFour ph).1 ∧ (tableFour (ph + 1)).2.1 = (tableFour ph).2.1 ∧
        (tableFour (ph + 1)).2.2.1 ≠ (tableFour ph).2.2.1 ∧ (tableFour (ph + 1)).2.2.2 ≠ (tableFour ph).2.2.2)) ∧
  (∀ idx spr : Word, idx.toNat < spr.toNat → (spr.toNat % 4 = 0 ∨ idx.toNat + 1 ≠ spr.toNat) →
    phaseOf (nextIndex .forward idx spr) = phaseOf idx + 1) ∧
  (∀ idx spr : Word, idx.toNat < spr.toNat → (spr.toNat % 4 = 0 ∨ idx.toNat ≠ 0) →
    phaseOf (nextIndex .backward idx spr) = phaseOf idx - 1)

/-- R32: `SinkConfigure(p)` sets the mode of `p` to Output and keeps its level, `SinkWrite(p, l)` sets the level of `p` and
keeps its mode, every other pin keeps both, and a response changes nothing. -/
def Obligations.EventsDriveTheSink : Prop :=
  ∀ s : State, PinsWf s.pins →
    (∀ p q : Word, (s.emit (.sinkConfigure p)).pin q = if q = p then { mode := .output, level := (s.pin q).level } else s.pin q) ∧
    (∀ (p q : Word) (l : Level),
      (s.emit (.sinkWrite p l)).pin q = if q = p then { mode := (s.pin q).mode, level := .driven l } else s.pin q) ∧
    (∀ status data q, (s.emit (.respond status data)).pin q = s.pin q)

/-- Whatever pins a slot names, also the same pin twice: every write appears in the trace in pin order, each pin holds the
last level written to it, and a pin that is not written keeps its content (R105, R138). -/
def Obligations.LastWrittenLevelWins : Prop :=
  ∀ (s : State) (m : Slot) (ph : Fin 4), PinsWf s.pins →
    (emitStepPattern ph m s).trace = s.trace ++ patternEvents ph m ∧
    (∀ before after p l, patternEvents ph m = before ++ [.sinkWrite p l] ++ after →
      (∀ l', .sinkWrite p l' ∉ after) → (emitStepPattern ph m s).pin p = { mode := (s.pin p).mode, level := .driven l }) ∧
    (∀ p, (∀ l, .sinkWrite p l ∉ patternEvents ph m) → (emitStepPattern ph m s).pin p = s.pin p)

/-- No command drives a coil: every pin keeps its level in the action of every accepted command, so a registered motor's
pins keep what the sink held until its first step (R106, R136). -/
def Obligations.CommandsDriveNoLevel : Prop :=
  ∀ (c : Command) (s t : State), PinsWf s.pins → accept c s = .next t → ∀ p, (t.pin p).level = (s.pin p).level

/-! ### Frames -/

/-- The frame of CONSTRUCT, SET_SPEED, MOVE_BY and VERSION on every path that answers a next state: the sink, the clock,
the parameters and the environment's lists are unchanged; `capacity` and `count` change only in CONSTRUCT, `busy` and
`scan` only in MOVE_BY; in a slot, SET_SPEED changes only `interval` of its motor and MOVE_BY only `direction` and `remaining`
of the slots it gives a target; the trace takes at most the response. -/
def Obligations.FrameOfSinklessCommands : Prop :=
  ∀ (i : Instr) (s t : State), exec i s = .next t →
    (∀ spr a b, i ≠ .reg2 spr a b) → (∀ spr a b c d, i ≠ .reg4 spr a b c d) →
      t.cfg = s.cfg ∧ t.time = s.time ∧ t.pins = s.pins ∧ t.offered = s.offered ∧ t.schedule = s.schedule ∧
      t.draws = s.draws ∧
      ((∃ cap, i = .construct cap) ∨ (t.capacity = s.capacity ∧ t.count = s.count)) ∧
      ((∃ ts, i = .moveBy ts) ∨ (t.busy = s.busy ∧ t.scan = s.scan)) ∧
      t.slots.length = s.slots.length ∧
      (∀ j m, s.slots[j]? = some m → ∃ m', t.slots[j]? = some m' ∧
        m' = { m with direction := m'.direction, interval := m'.interval, remaining := m'.remaining } ∧
        (m'.interval = m.interval ∨ ∃ motor rpm, i = .setSpeed motor rpm ∧ motor.toNat = j) ∧
        ((m'.direction = m.direction ∧ m'.remaining = m.remaining) ∨ ∃ ts, i = .moveBy ts ∧ j < ts.length)) ∧
      (t.trace = s.trace ∨ ∃ status data, t.trace = s.trace ++ [.respond status data])

/-- The frame of REG2 and REG4 on every path that answers a next state: only slot `count` changes, only `count` of the bank
registers, only the mode of the operand pins; every other pin reads as before, and every level. -/
def Obligations.FrameOfRegistrations : Prop :=
  ∀ (i : Instr) (s t : State) (pins : List Word), PinsWf s.pins → exec i s = .next t →
    ((∃ spr a b, i = .reg2 spr a b ∧ pins = [a, b]) ∨ (∃ spr a b c d, i = .reg4 spr a b c d ∧ pins = [a, b, c, d])) →
      t.cfg = s.cfg ∧ t.time = s.time ∧ t.offered = s.offered ∧ t.schedule = s.schedule ∧ t.capacity = s.capacity ∧
      t.busy = s.busy ∧ t.scan = s.scan ∧ t.slots.length = s.slots.length ∧
      (∀ j, j ≠ s.count.toNat → t.slots[j]? = s.slots[j]?) ∧
      (∀ p, p ∉ pins → t.pin p = s.pin p) ∧ (∀ p, (t.pin p).level = (s.pin p).level)

/-- The frame of an evaluation that answers a next state: only the scanned slot changes, and in it only `stepIndex`,
`lastStep` and `remaining`; a pin's mode never changes, and a pin that is none of the slot's reads as before. -/
def Obligations.FrameOfEvaluate : Prop :=
  ∀ (s t : State) (m : Slot), PinsWf s.pins → evaluate s = .next t → s.slots[s.scan.toNat]? = some m →
    t.cfg = s.cfg ∧ t.time = s.time ∧ t.offered = s.offered ∧ t.schedule = s.schedule ∧ t.draws = s.draws ∧
    t.capacity = s.capacity ∧ t.count = s.count ∧ t.slots.length = s.slots.length ∧
    (∀ j, j ≠ s.scan.toNat → t.slots[j]? = s.slots[j]?) ∧
    (∃ m', t.slots[s.scan.toNat]? = some m' ∧
      m' = { m with stepIndex := m'.stepIndex, lastStep := m'.lastStep, remaining := m'.remaining }) ∧
    (∀ p, p ∉ m.pins → t.pin p = s.pin p) ∧ (∀ p, (t.pin p).mode = (s.pin p).mode)

/-! ### Invariants and whole-machine rules -/

/-- The model's invariant holds in the state after reset, for every legal value of the parameters and every time. The
invariant is R18's with the clauses that log 14 (DEDUCED) adds, and that the sink is canonical there rests on the start
content that log 7 (DESIGN CHOICE) names; the bank invariants of R18 alone hold there too. -/
def Obligations.BankInvariantsHoldAtReset : Prop :=
  (∀ (cfg : Config) (time : Nat), cfg.Legal →
    (State.resetFor cfg time).Inv ∧ (State.resetFor cfg time).BankInvariants) ∧
  State.reset.Inv ∧ State.reset.BankInvariants

/-- Every step keeps the model's invariant, from every state that meets it. Beside the clauses of R18 it holds the size of
the slot file, the ranges of the parameters, of `scan`, `interval` and `remaining`, that a running move has steps left, and
the sink's form: these are the model's (log 14, DEDUCED). -/
def Obligations.EveryStepKeepsTheBankInvariants : Prop :=
  ∀ s t : State, s.Inv → step s = .next t → t.Inv

/-- R18: every action preserves the bank invariants, these clauses alone, from every state that meets them. -/
def Obligations.EveryActionPreservesTheInvariantsOfR18 : Prop :=
  (∀ (a : Action) (s t : State), s.BankInvariants →
    (∀ c, a = .accept c → s.busy = false) → (a = .evaluate → s.busy = true) → perform a s = .next t → t.BankInvariants) ∧
  (∀ s t : State, s.BankInvariants → step s = .next t → t.BankInvariants) ∧
  (∀ s : State, s.Inv → s.BankInvariants)

/-- From every state that meets the bank invariants the machine runs forever: no step faults and none is refused,
whatever commands, resets and clock advances come (R113: no fatal state). -/
def Obligations.LegalStatesNeverStop : Prop :=
  ∀ s : State, s.Inv → s.RunsForever

/-- The trace only grows, at its end; the sink is what the new events make of it, and only they change it; an action emits
at most four pin events, the width of the `pin_evt` port, and at most one response, which comes last (R32, R33, R45, R49). -/
def Obligations.SinkFollowsTheTrace : Prop :=
  ∀ s t : State, step s = .next t →
    ∃ evs rsp, t.trace = s.trace ++ evs ++ rsp ∧ t.pins = evs.foldl sinkAfter s.pins ∧ responseOf evs = none ∧
      evs.length ≤ 4 ∧ (rsp = [] ∨ ∃ status data, rsp = [.respond status data])

/-- The four `pin_evt` lanes of a step are its pin events in trace order, the first on lane 0, and then idle lanes (R49). -/
def Obligations.PortLanesCarryEveryPinEvent : Prop :=
  ∀ s t : State, step s = .next t →
    (outputs s t).pinEvt.length = 4 ∧
      ∃ idle, (outputs s t).pinEvt = (newEvents s t).filterMap laneOf ++ List.replicate idle PinLane.idle

/-- Every step keeps this: each pin of a registered slot is configured as an output. And so every pin that a step writes
was configured before (R128). -/
def Obligations.PinsAreConfiguredBeforeTheyAreWritten : Prop :=
  ∀ s t : State, PinsWf s.pins → s.PinsConfigured → step s = .next t →
    t.PinsConfigured ∧ ∀ p l, .sinkWrite p l ∈ newEvents s t → (s.pin p).mode = .output

/-- No step changes the parameters, and the clock moves by exactly what the environment lets it: it never steps back
(R6, R31). -/
def Obligations.ParametersStayAndTimeIsMonotone : Prop :=
  ∀ s t : State, step s = .next t → t.cfg = s.cfg ∧ t.time = s.time + s.tick.advance ∧ s.time ≤ t.time

/-- What a registration fixed stays: without reset, a step that leaves a slot registered keeps its `spr`, wiring and
driven pins, and changes its interval only by accepting a SET_SPEED of that motor (R21, R23, R25, R26). -/
def Obligations.RegisteredFieldsAreFixed : Prop :=
  ∀ (s t : State) (j : Nat) (m : Slot), s.tick.rst = false → step s = .next t → j < s.count.toNat →
    s.slots[j]? = some m →
      ∃ m', t.slots[j]? = some m' ∧ m'.spr = m.spr ∧ m'.wiring = m.wiring ∧ m'.pins = m.pins ∧
        (m'.interval = m.interval ∨
          ∃ c motor rpm, s.nextAction = some (.accept c) ∧ decode c = .instr (.setSpeed motor rpm) ∧ motor.toNat = j)
end

