-- ==== Sys2Proof/Laws/Assembler.lean ====
section
/-! SUPPORT. The laws of the textual syntax: a written number, operand or operand list is read back, and what a written line
assembles to. -/

namespace Sys2Proof.Machine

/-! ### Characters -/

/-- A character that neither ends an operand nor starts a comment. -/
def Plain (c : Char) : Prop := c ≠ ',' ∧ c ≠ ';' ∧ asmBlank c = false

theorem digitValue_digitChar {d : Nat} (h : d < 16) : digitValue (digitChar d) = some d := by
  interval_cases d <;> decide

theorem digitChar_plain {d : Nat} (h : d < 16) : Plain (digitChar d) ∧ digitChar d ≠ '-' ∧ digitChar d ≠ 'x' := by
  unfold Plain
  interval_cases d <;> decide

/-! ### Numbers -/

/-- Writing a number in front of a text and reading on from 0 is reading the text on from the number. -/
theorem digitsFrom_numeralFrom {base : Nat} (h2 : 2 ≤ base) (h16 : base ≤ 16) (fuel n : Nat) (acc : List Char)
    (hn : n < fuel) : digitsFrom base 0 (numeralFrom base fuel n acc) = digitsFrom base n acc := by
  induction fuel generalizing n acc with
  | zero => omega
  | succ fuel ih =>
    have hm : n % base < base := Nat.mod_lt _ (by omega)
    have read : ∀ a, digitsFrom base a (digitChar (n % base) :: acc) = digitsFrom base (a * base + n % base) acc := by
      intro a
      simp [digitsFrom, digitValue_digitChar (show n % base < 16 by omega), hm]
    unfold numeralFrom
    split
    · next h0 => rw [read, Nat.zero_mul, Nat.zero_add, Nat.mod_eq_of_lt ((Nat.div_eq_zero_iff_lt (by omega)).1 h0)]
    · next h0 =>
      have hd : n / base < n := Nat.div_lt_self (Nat.pos_of_ne_zero fun e => h0 (by simp [e])) (by omega)
      rw [ih _ _ (by omega), read, Nat.mul_comm, Nat.div_add_mod]

/-- The characters of a written number are digit characters. -/
theorem mem_numeralFrom {base : Nat} (h2 : 2 ≤ base) (h16 : base ≤ 16) {c : Char} (fuel n : Nat) (acc : List Char)
    (h : c ∈ numeralFrom base fuel n acc) : (∃ d, d < 16 ∧ c = digitChar d) ∨ c ∈ acc := by
  induction fuel generalizing n acc with
  | zero => exact .inr h
  | succ fuel ih =>
    have hm : n % base < base := Nat.mod_lt _ (by omega)
    have read : c ∈ digitChar (n % base) :: acc → (∃ d, d < 16 ∧ c = digitChar d) ∨ c ∈ acc := fun h =>
      (List.mem_cons.1 h).imp_left fun e => ⟨_, by omega, e⟩
    unfold numeralFrom at h
    split at h
    · exact read h
    · exact (ih _ _ h).elim .inl read

theorem mem_numeral {base : Nat} (h2 : 2 ≤ base) (h16 : base ≤ 16) {c : Char} {n : Nat} (h : c ∈ numeral base n) :
    Plain c ∧ c ≠ '-' ∧ c ≠ 'x' := by
  rcases mem_numeralFrom h2 h16 _ _ _ h with ⟨d, hd, rfl⟩ | h
  · exact digitChar_plain hd
  · cases h

theorem numeral_ne_nil {base : Nat} (h2 : 2 ≤ base) (h16 : base ≤ 16) (n : Nat) : numeral base n ≠ [] := by
  intro e
  have h := digitsFrom_numeralFrom h2 h16 (n + 1) n [] (by omega)
  rw [show numeralFrom base (n + 1) n [] = [] from e] at h
  have h0 : n = 0 := by simpa [digitsFrom] using h.symm
  subst h0
  simp [numeral, numeralFrom] at e

/-- A written number is read back. -/
theorem digits_numeral {base : Nat} (h2 : 2 ≤ base) (h16 : base ≤ 16) (n : Nat) : digits base (numeral base n) = some n := by
  have h := digitsFrom_numeralFrom h2 h16 (n + 1) n [] (by omega)
  change digitsFrom base 0 (numeral base n) = some n at h
  cases hc : numeral base n with
  | nil => exact absurd hc (numeral_ne_nil h2 h16 n)
  | cons c cs => rw [hc] at h; exact h

/-! ### Operands -/

theorem parseOperand_decimal {cs : List Char} (h : ∀ c ∈ cs, c ≠ '-' ∧ c ≠ 'x') :
    parseOperand cs = (digits 10 cs).map fun v : Nat => .decimal (v : Int) := by
  unfold parseOperand
  split
  · exact absurd rfl (h 'x' (by simp)).2
  · exact absurd rfl (h '-' (by simp)).1
  · rfl

/-- A written operand is read back. -/
theorem parseOperand_operandText (o : AsmOperand) : parseOperand (operandText o) = some o := by
  cases o with
  | hexadecimal v => simp [operandText, parseOperand, digits_numeral]
  | decimal v =>
    simp only [operandText]
    split
    · next hv => simp [parseOperand, digits_numeral, abs_of_neg hv]
    · next hv =>
      rw [parseOperand_decimal fun c hc => (mem_numeral (by omega) (by omega) hc).2, digits_numeral (by omega) (by omega)]
      simp; omega

theorem operandText_plain {o : AsmOperand} {c : Char} (h : c ∈ operandText o) : Plain c := by
  have hd : Plain '-' ∧ Plain '0' ∧ Plain 'x' := by unfold Plain; decide
  have num : ∀ {base n}, 2 ≤ base → base ≤ 16 → c ∈ numeral base n → Plain c := fun h2 h16 h => (mem_numeral h2 h16 h).1
  cases o with
  | hexadecimal v =>
    simp only [operandText, List.mem_cons] at h
    rcases h with rfl | rfl | h
    · exact hd.2.1
    · exact hd.2.2
    · exact num (by omega) (by omega) h
  | decimal v =>
    simp only [operandText] at h
    split at h
    · rcases List.mem_cons.1 h with rfl | h
      · exact hd.1
      · exact num (by omega) (by omega) h
    · exact num (by omega) (by omega) h

theorem operandText_ne_nil (o : AsmOperand) : operandText o ≠ [] := by
  cases o with
  | hexadecimal v => simp [operandText]
  | decimal v =>
    simp only [operandText]
    split
    · simp
    · exact numeral_ne_nil (by omega) (by omega) _

/-! ### Operand ranges -/

theorem signedOperand_of_inRange {o : AsmOperand} (h : o.SignedInRange) : signedOperand o = some o.word := by
  cases o <;> simp only [AsmOperand.SignedInRange, signedOperand, AsmOperand.word] at * <;> rw [if_pos (by omega)]

theorem signedOperand_of_outOfRange {o : AsmOperand} (h : ¬ o.SignedInRange) : signedOperand o = none := by
  cases o <;> simp only [AsmOperand.SignedInRange, signedOperand] at * <;> rw [if_neg (by omega)]

theorem unsignedOperand_of_inRange {o : AsmOperand} (h : o.UnsignedInRange) : unsignedOperand o = some o.word := by
  cases o <;> simp only [AsmOperand.UnsignedInRange, unsignedOperand, AsmOperand.word] at * <;> rw [if_pos (by omega)]

theorem unsignedOperand_of_outOfRange {o : AsmOperand} (h : ¬ o.UnsignedInRange) : unsignedOperand o = none := by
  cases o <;> simp only [AsmOperand.UnsignedInRange, unsignedOperand] at * <;> rw [if_neg (by omega)]

@[simp] theorem AsmOperand.word_decimal_toInt (w : Word) : (AsmOperand.decimal w.toInt).word = w := by simp [AsmOperand.word]
@[simp] theorem AsmOperand.word_decimal_toNat (w : Word) : (AsmOperand.decimal (w.toNat : Int)).word = w := by
  simp [AsmOperand.word]
@[simp] theorem AsmOperand.word_hexadecimal_toNat (w : Word) : (AsmOperand.hexadecimal w.toNat).word = w := by
  simp [AsmOperand.word]

/-! ### Cutting a text -/

/-- A text without a blank at either end is its own trimmed text. -/
theorem trimBlanks_eq_self {cs : List Char} (h : ∀ c ∈ cs.head?, asmBlank c = false)
    (h' : ∀ c ∈ cs.getLast?, asmBlank c = false) : trimBlanks cs = cs := by
  have drop : ∀ l : List Char, (∀ c ∈ l.head?, asmBlank c = false) → l.dropWhile asmBlank = l := by
    intro l hl
    cases l with
    | nil => rfl
    | cons c l => simp [hl c (by simp)]
  unfold trimBlanks
  rw [drop cs h, drop cs.reverse (by simpa using h'), List.reverse_reverse]

theorem trimBlanks_plain {cs : List Char} (h : ∀ c ∈ cs, Plain c) : trimBlanks cs = cs :=
  trimBlanks_eq_self (fun c hc => (h c (List.mem_of_mem_head? hc)).2.2) (fun c hc => (h c (List.mem_of_getLast? hc)).2.2)

@[simp] theorem trimBlanks_space (cs : List Char) : trimBlanks (' ' :: cs) = trimBlanks cs := by
  simp [trimBlanks, asmBlank]

theorem splitAt_plain {cs : List Char} (h : ',' ∉ cs) : splitAt ',' cs = [cs] := by
  induction cs with
  | nil => rfl
  | cons c cs ih =>
    rw [List.mem_cons, not_or] at h
    simp [splitAt, Ne.symm h.1, ih h.2]

theorem splitAt_append {cs rest : List Char} (h : ',' ∉ cs) : splitAt ',' (cs ++ ',' :: rest) = cs :: splitAt ',' rest := by
  induction cs with
  | nil => simp [splitAt]
  | cons c cs ih =>
    rw [List.mem_cons, not_or] at h
    simp [splitAt, Ne.symm h.1, ih h.2]

/-! ### Operand lists -/

theorem mem_operandsText {ops : List AsmOperand} {c : Char} (h : c ∈ operandsText ops) : Plain c ∨ c = ',' ∨ c = ' ' := by
  induction ops with
  | nil => cases h
  | cons o os ih =>
    cases os with
    | nil => exact .inl (operandText_plain h)
    | cons o' os =>
      rw [operandsText, List.mem_append, List.mem_cons, List.mem_cons] at h
      · rcases h with h | rfl | rfl | h
        · exact .inl (operandText_plain h)
        · exact .inr (.inl rfl)
        · exact .inr (.inr rfl)
        · exact ih h
      · simp

theorem operandsText_ne_nil {ops : List AsmOperand} (h : ops ≠ []) : operandsText ops ≠ [] := by
  cases ops with
  | nil => exact absurd rfl h
  | cons o os =>
    cases os with
    | nil => exact operandText_ne_nil o
    | cons o' os => rw [operandsText] <;> simp

/-- A written operand list ends in a character that is no blank. -/
theorem getLast?_operandsText {ops : List AsmOperand} {c : Char} (h : c ∈ (operandsText ops).getLast?) : Plain c := by
  induction ops with
  | nil => cases h
  | cons o os ih =>
    cases os with
    | nil => exact operandText_plain (List.mem_of_getLast? h)
    | cons o' os =>
      refine ih ?_
      have hne := operandsText_ne_nil (List.cons_ne_nil o' os)
      rw [operandsText] at h
      · cases hl : operandsText (o' :: os) with
        | nil => exact absurd hl hne
        | cons a l => rw [hl] at h; simpa [List.getLast?_append, List.getLast?_cons_cons] using h
      · simp

theorem parse_parts (ops : List AsmOperand) (hne : ops ≠ []) (lead : List Char) (hlead : lead = [] ∨ lead = [' ']) :
    ((splitAt ',' (lead ++ operandsText ops)).mapM fun p => parseOperand (trimBlanks p)) = some ops := by
  have one : ∀ {lead : List Char} (o : AsmOperand), lead = [] ∨ lead = [' '] →
      parseOperand (trimBlanks (lead ++ operandText o)) = some o ∧ ',' ∉ lead ++ operandText o := by
    intro lead o hl
    have hp : trimBlanks (operandText o) = operandText o := trimBlanks_plain fun c hc => operandText_plain hc
    have hc : ',' ∉ operandText o := fun h => (operandText_plain h).1 rfl
    rcases hl with rfl | rfl
    · exact ⟨by rw [List.nil_append, hp, parseOperand_operandText], by simpa using hc⟩
    · refine ⟨?_, by simpa using hc⟩
      rw [List.singleton_append, trimBlanks_space, hp, parseOperand_operandText]
  induction ops generalizing lead with
  | nil => exact absurd rfl hne
  | cons o os ih =>
    obtain ⟨h1, h2⟩ := one o hlead
    cases os with
    | nil => simp [operandsText, splitAt_plain h2, h1]
    | cons o' os =>
      have h3 := ih (by simp) [' '] (.inr rfl)
      rw [operandsText, ← List.append_assoc, splitAt_append h2, List.mapM_cons, h1]
      · rw [show ' ' :: operandsText (o' :: os) = [' '] ++ operandsText (o' :: os) from rfl, h3]; rfl
      · simp

/-- A written operand list is read back. -/
theorem parseOperands_operandsText (ops : List AsmOperand) : parseOperands (' ' :: operandsText ops) = some ops := by
  by_cases hne : ops = []
  · subst hne; decide
  · unfold parseOperands
    rw [if_neg]
    · exact parse_parts ops hne [' '] (.inr rfl)
    · rw [trimBlanks_space, trimBlanks_eq_self]
      · exact operandsText_ne_nil hne
      · intro c hc
        cases ops with
        | nil => exact absurd rfl hne
        | cons o os =>
          obtain ⟨a, l, hal⟩ : ∃ a l, operandText o = a :: l := List.exists_cons_of_ne_nil (operandText_ne_nil o)
          have ha : Plain a := operandText_plain (o := o) (by simp [hal])
          have : (operandsText (o :: os)).head? = some a := by
            cases os with
            | nil => simp [operandsText, hal]
            | cons o' os => rw [operandsText] <;> simp [hal]
          rw [this] at hc
          cases hc
          exact ha.2.2
      · exact fun c hc => (getLast?_operandsText hc).2.2

/-! ### Lines -/

/-- What a written line, with a comment or none, assembles to: the command of its mnemonic and operands. -/
theorem assembleLine_lineText {mnemonic : String} {ops : List AsmOperand} {tail : List Char}
    (hm : ∀ c ∈ mnemonic.toList, Plain c) (hne : mnemonic.toList ≠ []) (ht : tail = [] ∨ ∃ comment, tail = ';' :: comment) :
    assembleLine (lineText mnemonic ops ++ tail) =
      match asmCommand mnemonic.toList ops with
      | none => .malformed
      | some i => .command i := by
  have noComment : ∀ c ∈ lineText mnemonic ops, (c != ';') = true := by
    intro c hc
    rw [lineText, List.mem_append, List.mem_cons] at hc
    rcases hc with hc | rfl | hc
    · simpa using (hm c hc).2.1
    · decide
    · rcases mem_operandsText hc with h | rfl | rfl
      · simpa using h.2.1
      · decide
      · decide
  have cut : (lineText mnemonic ops ++ tail).takeWhile (fun c => c != ';') = lineText mnemonic ops := by
    rw [List.takeWhile_append_of_pos noComment]
    rcases ht with rfl | ⟨comment, rfl⟩ <;> simp
  obtain ⟨a, l, hal⟩ : ∃ a l, mnemonic.toList = a :: l := List.exists_cons_of_ne_nil hne
  have ha : asmBlank a = false := (hm a (by simp [hal])).2.2
  have notBlank : ∀ c ∈ mnemonic.toList, (!asmBlank c) = true := fun c hc => by simp [(hm c hc).2.2]
  have parts : ∃ text, trimBlanks (lineText mnemonic ops) = text ∧ text ≠ [] ∧
      text.takeWhile (fun c => !asmBlank c) = mnemonic.toList ∧
      parseOperands (text.drop mnemonic.toList.length) = some ops := by
    by_cases ho : ops = []
    · subst ho
      refine ⟨mnemonic.toList, ?_, hne, ?_, ?_⟩
      · have h1 : ((lineText mnemonic []).dropWhile asmBlank) = lineText mnemonic [] := by
          simp [lineText, hal, ha]
        have h2 : (lineText mnemonic []).reverse = ' ' :: mnemonic.toList.reverse := by
          simp [lineText, operandsText]
        have h3 := trimBlanks_plain hm
        unfold trimBlanks at h3 ⊢
        rw [h1, h2]
        have h4 : mnemonic.toList.dropWhile asmBlank = mnemonic.toList := by simp [hal, ha]
        rw [h4] at h3
        simpa [asmBlank] using h3
      · exact List.takeWhile_eq_self_iff.2 notBlank
      · rw [List.drop_length]; decide
    · refine ⟨lineText mnemonic ops, ?_, by simp [lineText], ?_, ?_⟩
      · refine trimBlanks_eq_self ?_ ?_
        · intro c hc; rw [lineText, hal] at hc; cases hc; exact ha
        · intro c hc
          have hne' := operandsText_ne_nil ho
          cases hl : operandsText ops with
          | nil => exact absurd hl hne'
          | cons b l' =>
            rw [lineText, hl] at hc
            exact (getLast?_operandsText (ops := ops) (by
              rw [hl]; simpa [List.getLast?_append, List.getLast?_cons_cons] using hc)).2.2
      · rw [lineText, List.takeWhile_append_of_pos notBlank]
        simp [asmBlank]
      · rw [lineText, List.drop_left]; exact parseOperands_operandsText ops
  obtain ⟨text, h1, h2, h3, h4⟩ := parts
  unfold assembleLine
  rw [cut, h1]
  cases h5 : asmCommand mnemonic.toList ops <;> simp only [h2, if_false, h3, h4, h5]

/-- The six mnemonics of R62 are plain. -/
theorem mnemonics_plain :
    ∀ m ∈ ["CONSTRUCT", "REG2", "REG4", "SET_SPEED", "MOVE_BY", "VERSION"],
      (∀ c ∈ m.toList, Plain c) ∧ m.toList ≠ [] := by
  have h : (["CONSTRUCT", "REG2", "REG4", "SET_SPEED", "MOVE_BY", "VERSION"].all fun m =>
      (m.toList.all fun c => c != ',' && c != ';' && !asmBlank c) && !m.toList.isEmpty) = true := by decide
  intro m hm
  have := List.all_eq_true.1 h m hm
  rw [Bool.and_eq_true, List.all_eq_true] at this
  refine ⟨fun c hc => ?_, fun e => by simp [e] at this⟩
  simpa [Plain, and_assoc] using this.1 c hc

end Sys2Proof.Machine
end

