-- ==== Sys2Proof/Laws/Sink.lean ====
section
/-! SUPPORT. The laws of the pin sink: reading after writing, and that every operation keeps the canonical form. -/

namespace Sys2Proof.Machine

@[simp] theorem pinGet_pinCons_same (p : Nat) (v : PinState) (l : List (Nat × PinState))
    (h : pinGet l p = PinState.untouched) : pinGet (pinCons p v l) p = v := by
  unfold pinCons
  split
  · next hv => rw [h, hv]
  · simp [pinGet]

theorem pinGet_pinCons_other {p q : Nat} (hpq : q ≠ p) (v : PinState) (l : List (Nat × PinState)) :
    pinGet (pinCons p v l) q = pinGet l q := by
  unfold pinCons
  split
  · rfl
  · simp [pinGet, Ne.symm hpq]

/-- A pin that lies below every listed one holds what an unlisted pin holds. -/
theorem pinGet_of_lt {l : List (Nat × PinState)} {p : Nat} (h : ∀ e ∈ l, p < e.1) :
    pinGet l p = PinState.untouched := by
  induction l with
  | nil => rfl
  | cons e l ih =>
    have := h e (by simp)
    simp only [pinGet]
    rw [if_neg (by omega), ih fun e he => h e (by simp [he])]

theorem pinsWf_cons {k : Nat} {w : PinState} {l : List (Nat × PinState)} :
    PinsWf ((k, w) :: l) ↔ (∀ e ∈ l, k < e.1) ∧ k < 2 ^ 32 ∧ w ≠ PinState.untouched ∧ PinsWf l := by
  simp only [PinsWf, List.map_cons, List.pairwise_cons, List.mem_map, List.mem_cons, forall_eq_or_imp]
  constructor
  · rintro ⟨⟨h1, h2⟩, ⟨h3, h4⟩, h5⟩
    exact ⟨fun e he => h1 _ ⟨e, he, rfl⟩, h3, h4, h2, h5⟩
  · rintro ⟨h1, h3, h4, h2, h5⟩
    refine ⟨⟨?_, h2⟩, ⟨h3, h4⟩, h5⟩
    rintro _ ⟨e, he, rfl⟩
    exact h1 e he

theorem pinsWf_nil : PinsWf [] := by simp [PinsWf]

theorem pinCons_wf {p : Nat} {v : PinState} {l : List (Nat × PinState)} (hp : p < 2 ^ 32) (hl : PinsWf l)
    (h : ∀ e ∈ l, p < e.1) : PinsWf (pinCons p v l) := by
  unfold pinCons
  split
  · exact hl
  · next hv => exact pinsWf_cons.2 ⟨h, hp, hv, hl⟩

/-- Every key of a sink after a write was there before or is the pin written. -/
theorem pinPut_keys {l : List (Nat × PinState)} {p : Nat} {v : PinState} {e : Nat × PinState} (h : e ∈ pinPut l p v) :
    e.1 = p ∨ e ∈ l := by
  induction l with
  | nil =>
    simp only [pinPut, pinCons] at h
    split at h
    · simp at h
    · simp only [List.mem_singleton] at h
      exact .inl (by rw [h])
  | cons a l ih =>
    obtain ⟨k, w⟩ := a
    simp only [pinPut, pinCons] at h
    split_ifs at h
    · exact .inr h
    · rcases List.mem_cons.1 h with rfl | h
      · exact .inl rfl
      · exact .inr h
    · exact .inr (List.mem_cons_of_mem _ h)
    · rcases List.mem_cons.1 h with rfl | h
      · exact .inl rfl
      · exact .inr (List.mem_cons_of_mem _ h)
    · rcases List.mem_cons.1 h with rfl | h
      · exact .inr (by simp)
      · rcases ih h with h | h
        · exact .inl h
        · exact .inr (List.mem_cons_of_mem _ h)

/-- A write keeps the canonical form. -/
theorem pinPut_wf {l : List (Nat × PinState)} {p : Nat} {v : PinState} (hp : p < 2 ^ 32) (hl : PinsWf l) :
    PinsWf (pinPut l p v) := by
  induction l with
  | nil => exact pinCons_wf hp pinsWf_nil (by simp)
  | cons a l ih =>
    obtain ⟨k, w⟩ := a
    obtain ⟨h1, h2, h3, h4⟩ := pinsWf_cons.1 hl
    unfold pinPut
    split
    · next hlt =>
      refine pinCons_wf hp hl fun e he => ?_
      rcases List.mem_cons.1 he with rfl | he
      · exact hlt
      · exact lt_trans hlt (h1 e he)
    · split
      · next heq => exact pinCons_wf hp h4 fun e he => heq ▸ h1 e he
      · next hge hne =>
        refine pinsWf_cons.2 ⟨fun e he => ?_, h2, h3, ih h4⟩
        rcases pinPut_keys he with he | he
        · omega
        · exact h1 e he

/-- Reading the pin written. -/
theorem pinGet_pinPut_same {l : List (Nat × PinState)} (hl : PinsWf l) (p : Nat) (v : PinState) :
    pinGet (pinPut l p v) p = v := by
  induction l with
  | nil => exact pinGet_pinCons_same p v [] rfl
  | cons a l ih =>
    obtain ⟨k, w⟩ := a
    obtain ⟨h1, -, -, h4⟩ := pinsWf_cons.1 hl
    unfold pinPut
    split
    · next hlt =>
      refine pinGet_pinCons_same p v _ (pinGet_of_lt fun e he => ?_)
      rcases List.mem_cons.1 he with rfl | he
      · exact hlt
      · exact lt_trans hlt (h1 e he)
    · split
      · next heq => exact pinGet_pinCons_same p v _ (pinGet_of_lt fun e he => heq ▸ h1 e he)
      · next hne => simp only [pinGet]; rw [if_neg (Ne.symm hne), ih h4]

/-- Reading another pin; it needs no canonical form. -/
theorem pinGet_pinPut_other {p q : Nat} (hpq : q ≠ p) (l : List (Nat × PinState)) (v : PinState) :
    pinGet (pinPut l p v) q = pinGet l q := by
  induction l with
  | nil => exact pinGet_pinCons_other hpq v []
  | cons a l ih =>
    obtain ⟨k, w⟩ := a
    unfold pinPut
    split
    · exact pinGet_pinCons_other hpq v _
    · split
      · next heq => rw [pinGet_pinCons_other hpq]; simp only [pinGet]; rw [if_neg (by omega)]
      · simp only [pinGet]; rw [ih]

/-- Two canonical sinks that read the same everywhere are the same list. -/
theorem pins_ext {l l' : List (Nat × PinState)} (hl : PinsWf l) (hl' : PinsWf l')
    (h : ∀ p, pinGet l p = pinGet l' p) : l = l' := by
  induction l generalizing l' with
  | nil =>
    cases l' with
    | nil => rfl
    | cons a l' =>
      have := h a.1
      obtain ⟨-, -, h3, -⟩ := pinsWf_cons.1 hl'
      simp only [pinGet, if_true] at this
      exact absurd this.symm h3
  | cons a l ih =>
    obtain ⟨k, w⟩ := a
    obtain ⟨h1, -, h3, h4⟩ := pinsWf_cons.1 hl
    cases l' with
    | nil =>
      have := h k
      simp only [pinGet, if_true] at this
      exact absurd this h3
    | cons b l' =>
      obtain ⟨k', w'⟩ := b
      obtain ⟨g1, -, g3, g4⟩ := pinsWf_cons.1 hl'
      have hk : k = k' := by
        rcases lt_trichotomy k k' with hlt | heq | hlt
        · have := h k
          rw [pinGet_of_lt (l := (k', w') :: l') (p := k)] at this
          · simp only [pinGet, if_true] at this; exact absurd this h3
          · intro e he
            rcases List.mem_cons.1 he with rfl | he
            · exact hlt
            · exact lt_trans hlt (g1 e he)
        · exact heq
        · have := h k'
          rw [pinGet_of_lt (l := (k, w) :: l) (p := k')] at this
          · simp only [pinGet, if_true] at this; exact absurd this.symm g3
          · intro e he
            rcases List.mem_cons.1 he with rfl | he
            · exact hlt
            · exact lt_trans hlt (h1 e he)
      subst hk
      have hw : w = w' := by simpa [pinGet] using h k
      rw [hw, ih h4 g4]
      intro p
      by_cases hp : p = k
      · rw [hp, pinGet_of_lt h1, pinGet_of_lt g1]
      · simpa [pinGet, Ne.symm hp] using h p

theorem toNat_ne_of_ne {p q : Word} (h : q ≠ p) : q.toNat ≠ p.toNat := fun h' => h (BitVec.eq_of_toNat_eq h')

theorem sinkAfter_wf {l : List (Nat × PinState)} (hl : PinsWf l) (e : Event) : PinsWf (sinkAfter l e) := by
  cases e with
  | sinkConfigure p => exact pinPut_wf p.isLt hl
  | sinkWrite p v => exact pinPut_wf p.isLt hl
  | respond s d => exact hl

/-- Any events keep the canonical form. -/
theorem foldl_sinkAfter_wf {l : List (Nat × PinState)} (hl : PinsWf l) (es : List Event) :
    PinsWf (es.foldl sinkAfter l) := by
  induction es generalizing l with
  | nil => exact hl
  | cons e es ih => exact ih (sinkAfter_wf hl e)

/-- What `SinkConfigure(p)` leaves at each pin (R32). -/
theorem pinGet_sinkConfigured {l : List (Nat × PinState)} (hl : PinsWf l) (p q : Word) :
    pinGet (sinkConfigured l p) q.toNat =
      if q = p then { mode := .output, level := (pinGet l q.toNat).level } else pinGet l q.toNat := by
  unfold sinkConfigured
  split
  · next h => rw [h, pinGet_pinPut_same hl]
  · next h => rw [pinGet_pinPut_other (toNat_ne_of_ne h)]

/-- What `SinkWrite(p, v)` leaves at each pin (R32). -/
theorem pinGet_sinkWritten {l : List (Nat × PinState)} (hl : PinsWf l) (p q : Word) (v : Level) :
    pinGet (sinkWritten l p v) q.toNat =
      if q = p then { mode := (pinGet l q.toNat).mode, level := .driven v } else pinGet l q.toNat := by
  unfold sinkWritten
  split
  · next h => rw [h, pinGet_pinPut_same hl]
  · next h => rw [pinGet_pinPut_other (toNat_ne_of_ne h)]

/-- Events that do not name a pin leave what the sink holds for it. -/
theorem pinGet_foldl_of_not_named {es : List Event} {p : Word} (hc : .sinkConfigure p ∉ es)
    (hw : ∀ v, .sinkWrite p v ∉ es) (l : List (Nat × PinState)) :
    pinGet (es.foldl sinkAfter l) p.toNat = pinGet l p.toNat := by
  induction es generalizing l with
  | nil => rfl
  | cons e es ih =>
    rw [List.foldl_cons, ih (fun h => hc (List.mem_cons_of_mem _ h)) fun v h => hw v (List.mem_cons_of_mem _ h)]
    cases e with
    | sinkConfigure q =>
      exact pinGet_pinPut_other (toNat_ne_of_ne fun h => hc (by rw [h]; exact List.mem_cons_self)) _ _
    | sinkWrite q v =>
      exact pinGet_pinPut_other (toNat_ne_of_ne fun h => hw v (by rw [h]; exact List.mem_cons_self)) _ _
    | respond st d => rfl

/-- Writes keep every pin's mode. -/
theorem mode_foldl_of_writes {es : List Event} (h : ∀ e ∈ es, ∃ p v, e = .sinkWrite p v) {l : List (Nat × PinState)}
    (hl : PinsWf l) (q : Word) : (pinGet (es.foldl sinkAfter l) q.toNat).mode = (pinGet l q.toNat).mode := by
  induction es generalizing l with
  | nil => rfl
  | cons e es ih =>
    obtain ⟨p, v, rfl⟩ := h e List.mem_cons_self
    rw [List.foldl_cons, ih (fun e he => h e (List.mem_cons_of_mem _ he)) (sinkAfter_wf hl _)]
    show (pinGet (sinkWritten l p v) q.toNat).mode = _
    rw [pinGet_sinkWritten hl]
    split <;> rfl

end Sys2Proof.Machine
end

