-- ==== Sys2Proof/Laws/State.lean ====
section
/-! SUPPORT. One lemma per field per update of State: what each shared operation leaves in each field. -/

namespace Sys2Proof.Machine

/-! ### Writing a slot -/

@[simp] theorem State.writeSlot_cfg (s : State) (i : Nat) (v : Slot) :
    (s.writeSlot i v).cfg = s.cfg := rfl
@[simp] theorem State.writeSlot_capacity (s : State) (i : Nat) (v : Slot) :
    (s.writeSlot i v).capacity = s.capacity := rfl
@[simp] theorem State.writeSlot_count (s : State) (i : Nat) (v : Slot) :
    (s.writeSlot i v).count = s.count := rfl
@[simp] theorem State.writeSlot_busy (s : State) (i : Nat) (v : Slot) :
    (s.writeSlot i v).busy = s.busy := rfl
@[simp] theorem State.writeSlot_scan (s : State) (i : Nat) (v : Slot) :
    (s.writeSlot i v).scan = s.scan := rfl
@[simp] theorem State.writeSlot_slots (s : State) (i : Nat) (v : Slot) :
    (s.writeSlot i v).slots = s.slots.set i v := rfl
@[simp] theorem State.writeSlot_time (s : State) (i : Nat) (v : Slot) :
    (s.writeSlot i v).time = s.time := rfl
@[simp] theorem State.writeSlot_pins (s : State) (i : Nat) (v : Slot) :
    (s.writeSlot i v).pins = s.pins := rfl
@[simp] theorem State.writeSlot_trace (s : State) (i : Nat) (v : Slot) :
    (s.writeSlot i v).trace = s.trace := rfl
@[simp] theorem State.writeSlot_offered (s : State) (i : Nat) (v : Slot) :
    (s.writeSlot i v).offered = s.offered := rfl
@[simp] theorem State.writeSlot_schedule (s : State) (i : Nat) (v : Slot) :
    (s.writeSlot i v).schedule = s.schedule := rfl
@[simp] theorem State.writeSlot_draws (s : State) (i : Nat) (v : Slot) :
    (s.writeSlot i v).draws = s.draws := rfl

/-! ### Emitting one event -/

@[simp] theorem State.emit_cfg (s : State) (e : Event) :
    (s.emit e).cfg = s.cfg := rfl
@[simp] theorem State.emit_capacity (s : State) (e : Event) :
    (s.emit e).capacity = s.capacity := rfl
@[simp] theorem State.emit_count (s : State) (e : Event) :
    (s.emit e).count = s.count := rfl
@[simp] theorem State.emit_busy (s : State) (e : Event) :
    (s.emit e).busy = s.busy := rfl
@[simp] theorem State.emit_scan (s : State) (e : Event) :
    (s.emit e).scan = s.scan := rfl
@[simp] theorem State.emit_slots (s : State) (e : Event) :
    (s.emit e).slots = s.slots := rfl
@[simp] theorem State.emit_time (s : State) (e : Event) :
    (s.emit e).time = s.time := rfl
@[simp] theorem State.emit_pins (s : State) (e : Event) :
    (s.emit e).pins = sinkAfter s.pins e := rfl
@[simp] theorem State.emit_trace (s : State) (e : Event) :
    (s.emit e).trace = s.trace ++ [e] := rfl
@[simp] theorem State.emit_offered (s : State) (e : Event) :
    (s.emit e).offered = s.offered := rfl
@[simp] theorem State.emit_schedule (s : State) (e : Event) :
    (s.emit e).schedule = s.schedule := rfl
@[simp] theorem State.emit_draws (s : State) (e : Event) :
    (s.emit e).draws = s.draws := rfl

/-! ### Emitting events in order -/

@[simp] theorem State.emitAll_cfg (s : State) (es : List Event) : (s.emitAll es).cfg = s.cfg := by
  induction es generalizing s with
  | nil => rfl
  | cons e es ih => simp [State.emitAll, ih]
@[simp] theorem State.emitAll_capacity (s : State) (es : List Event) : (s.emitAll es).capacity = s.capacity := by
  induction es generalizing s with
  | nil => rfl
  | cons e es ih => simp [State.emitAll, ih]
@[simp] theorem State.emitAll_count (s : State) (es : List Event) : (s.emitAll es).count = s.count := by
  induction es generalizing s with
  | nil => rfl
  | cons e es ih => simp [State.emitAll, ih]
@[simp] theorem State.emitAll_busy (s : State) (es : List Event) : (s.emitAll es).busy = s.busy := by
  induction es generalizing s with
  | nil => rfl
  | cons e es ih => simp [State.emitAll, ih]
@[simp] theorem State.emitAll_scan (s : State) (es : List Event) : (s.emitAll es).scan = s.scan := by
  induction es generalizing s with
  | nil => rfl
  | cons e es ih => simp [State.emitAll, ih]
@[simp] theorem State.emitAll_slots (s : State) (es : List Event) : (s.emitAll es).slots = s.slots := by
  induction es generalizing s with
  | nil => rfl
  | cons e es ih => simp [State.emitAll, ih]
@[simp] theorem State.emitAll_time (s : State) (es : List Event) : (s.emitAll es).time = s.time := by
  induction es generalizing s with
  | nil => rfl
  | cons e es ih => simp [State.emitAll, ih]
@[simp] theorem State.emitAll_pins (s : State) (es : List Event) :
    (s.emitAll es).pins = es.foldl sinkAfter s.pins := by
  induction es generalizing s with
  | nil => rfl
  | cons e es ih => simp [State.emitAll, ih]
@[simp] theorem State.emitAll_trace (s : State) (es : List Event) : (s.emitAll es).trace = s.trace ++ es := by
  induction es generalizing s with
  | nil => simp [State.emitAll]
  | cons e es ih => simp [State.emitAll, ih]
@[simp] theorem State.emitAll_offered (s : State) (es : List Event) : (s.emitAll es).offered = s.offered := by
  induction es generalizing s with
  | nil => rfl
  | cons e es ih => simp [State.emitAll, ih]
@[simp] theorem State.emitAll_schedule (s : State) (es : List Event) : (s.emitAll es).schedule = s.schedule := by
  induction es generalizing s with
  | nil => rfl
  | cons e es ih => simp [State.emitAll, ih]
@[simp] theorem State.emitAll_draws (s : State) (es : List Event) : (s.emitAll es).draws = s.draws := by
  induction es generalizing s with
  | nil => rfl
  | cons e es ih => simp [State.emitAll, ih]

/-! ### Responding -/

@[simp] theorem State.respond_cfg (s : State) (st : BitVec 4) (d : Word) :
    (s.respond st d).cfg = s.cfg := rfl
@[simp] theorem State.respond_capacity (s : State) (st : BitVec 4) (d : Word) :
    (s.respond st d).capacity = s.capacity := rfl
@[simp] theorem State.respond_count (s : State) (st : BitVec 4) (d : Word) :
    (s.respond st d).count = s.count := rfl
@[simp] theorem State.respond_busy (s : State) (st : BitVec 4) (d : Word) :
    (s.respond st d).busy = s.busy := rfl
@[simp] theorem State.respond_scan (s : State) (st : BitVec 4) (d : Word) :
    (s.respond st d).scan = s.scan := rfl
@[simp] theorem State.respond_slots (s : State) (st : BitVec 4) (d : Word) :
    (s.respond st d).slots = s.slots := rfl
@[simp] theorem State.respond_time (s : State) (st : BitVec 4) (d : Word) :
    (s.respond st d).time = s.time := rfl
@[simp] theorem State.respond_pins (s : State) (st : BitVec 4) (d : Word) :
    (s.respond st d).pins = s.pins := rfl
@[simp] theorem State.respond_trace (s : State) (st : BitVec 4) (d : Word) :
    (s.respond st d).trace = s.trace ++ [.respond st d] := rfl
@[simp] theorem State.respond_offered (s : State) (st : BitVec 4) (d : Word) :
    (s.respond st d).offered = s.offered := rfl
@[simp] theorem State.respond_schedule (s : State) (st : BitVec 4) (d : Word) :
    (s.respond st d).schedule = s.schedule := rfl
@[simp] theorem State.respond_draws (s : State) (st : BitVec 4) (d : Word) :
    (s.respond st d).draws = s.draws := rfl

/-! ### The reset action -/

@[simp] theorem resetAction_cfg (s : State) : (resetAction s).cfg = s.cfg := rfl
@[simp] theorem resetAction_capacity (s : State) : (resetAction s).capacity = 0 := rfl
@[simp] theorem resetAction_count (s : State) : (resetAction s).count = 0 := rfl
@[simp] theorem resetAction_busy (s : State) : (resetAction s).busy = false := rfl
@[simp] theorem resetAction_scan (s : State) : (resetAction s).scan = 0 := rfl
@[simp] theorem resetAction_slots (s : State) : (resetAction s).slots = List.replicate s.cfg.maxSlots Slot.atReset := rfl
@[simp] theorem resetAction_time (s : State) : (resetAction s).time = s.time := rfl
@[simp] theorem resetAction_pins (s : State) : (resetAction s).pins = s.pins := rfl
@[simp] theorem resetAction_trace (s : State) : (resetAction s).trace = s.trace := rfl
@[simp] theorem resetAction_offered (s : State) : (resetAction s).offered = s.offered := rfl
@[simp] theorem resetAction_schedule (s : State) : (resetAction s).schedule = s.schedule := rfl
@[simp] theorem resetAction_draws (s : State) : (resetAction s).draws = s.draws := rfl

/-! ### The state after reset -/

@[simp] theorem State.resetFor_cfg (cfg : Config) (time : Nat) :
    (State.resetFor cfg time).cfg = cfg := rfl
@[simp] theorem State.resetFor_capacity (cfg : Config) (time : Nat) :
    (State.resetFor cfg time).capacity = 0 := rfl
@[simp] theorem State.resetFor_count (cfg : Config) (time : Nat) :
    (State.resetFor cfg time).count = 0 := rfl
@[simp] theorem State.resetFor_busy (cfg : Config) (time : Nat) :
    (State.resetFor cfg time).busy = false := rfl
@[simp] theorem State.resetFor_scan (cfg : Config) (time : Nat) :
    (State.resetFor cfg time).scan = 0 := rfl
@[simp] theorem State.resetFor_slots (cfg : Config) (time : Nat) :
    (State.resetFor cfg time).slots = List.replicate cfg.maxSlots Slot.atReset := rfl
@[simp] theorem State.resetFor_time (cfg : Config) (time : Nat) :
    (State.resetFor cfg time).time = time := rfl
@[simp] theorem State.resetFor_pins (cfg : Config) (time : Nat) :
    (State.resetFor cfg time).pins = [] := rfl
@[simp] theorem State.resetFor_trace (cfg : Config) (time : Nat) :
    (State.resetFor cfg time).trace = [] := rfl
@[simp] theorem State.resetFor_offered (cfg : Config) (time : Nat) :
    (State.resetFor cfg time).offered = [] := rfl
@[simp] theorem State.resetFor_schedule (cfg : Config) (time : Nat) :
    (State.resetFor cfg time).schedule = [] := rfl
@[simp] theorem State.resetFor_draws (cfg : Config) (time : Nat) :
    (State.resetFor cfg time).draws = 0 := rfl

/-! ### The environment's part of a step -/

@[simp] theorem State.afterTick_cfg (s : State) : s.afterTick.cfg = s.cfg := by
  unfold State.afterTick; split <;> rfl
@[simp] theorem State.afterTick_capacity (s : State) : s.afterTick.capacity = s.capacity := by
  unfold State.afterTick; split <;> rfl
@[simp] theorem State.afterTick_count (s : State) : s.afterTick.count = s.count := by
  unfold State.afterTick; split <;> rfl
@[simp] theorem State.afterTick_busy (s : State) : s.afterTick.busy = s.busy := by
  unfold State.afterTick; split <;> rfl
@[simp] theorem State.afterTick_scan (s : State) : s.afterTick.scan = s.scan := by
  unfold State.afterTick; split <;> rfl
@[simp] theorem State.afterTick_slots (s : State) : s.afterTick.slots = s.slots := by
  unfold State.afterTick; split <;> rfl
@[simp] theorem State.afterTick_time (s : State) : s.afterTick.time = s.time + s.tick.advance := by
  unfold State.afterTick State.tick; split <;> rfl
@[simp] theorem State.afterTick_pins (s : State) : s.afterTick.pins = s.pins := by
  unfold State.afterTick; split <;> rfl
@[simp] theorem State.afterTick_trace (s : State) : s.afterTick.trace = s.trace := by
  unfold State.afterTick; split <;> rfl
@[simp] theorem State.afterTick_offered (s : State) : s.afterTick.offered = s.offered := by
  unfold State.afterTick; split <;> rfl

/-! ### Offering commands -/

@[simp] theorem State.offering_cfg (s : State) (cs : List Command) : (s.offering cs).cfg = s.cfg := rfl
@[simp] theorem State.offering_capacity (s : State) (cs : List Command) : (s.offering cs).capacity = s.capacity := rfl
@[simp] theorem State.offering_count (s : State) (cs : List Command) : (s.offering cs).count = s.count := rfl
@[simp] theorem State.offering_busy (s : State) (cs : List Command) : (s.offering cs).busy = s.busy := rfl
@[simp] theorem State.offering_scan (s : State) (cs : List Command) : (s.offering cs).scan = s.scan := rfl
@[simp] theorem State.offering_slots (s : State) (cs : List Command) : (s.offering cs).slots = s.slots := rfl
@[simp] theorem State.offering_time (s : State) (cs : List Command) : (s.offering cs).time = s.time := rfl
@[simp] theorem State.offering_pins (s : State) (cs : List Command) : (s.offering cs).pins = s.pins := rfl
@[simp] theorem State.offering_trace (s : State) (cs : List Command) : (s.offering cs).trace = s.trace := rfl
@[simp] theorem State.offering_offered (s : State) (cs : List Command) : (s.offering cs).offered = cs := rfl
@[simp] theorem State.offering_schedule (s : State) (cs : List Command) : (s.offering cs).schedule = s.schedule := rfl
@[simp] theorem State.offering_draws (s : State) (cs : List Command) : (s.offering cs).draws = s.draws := rfl

/-! ### Ending a move -/

@[simp] theorem State.endMove_cfg (s : State) : (s.endMove).cfg = s.cfg := rfl
@[simp] theorem State.endMove_capacity (s : State) : (s.endMove).capacity = s.capacity := rfl
@[simp] theorem State.endMove_count (s : State) : (s.endMove).count = s.count := rfl
@[simp] theorem State.endMove_busy (s : State) : (s.endMove).busy = false := rfl
@[simp] theorem State.endMove_scan (s : State) : (s.endMove).scan = s.scan := rfl
@[simp] theorem State.endMove_slots (s : State) : (s.endMove).slots = s.slots := rfl
@[simp] theorem State.endMove_time (s : State) : (s.endMove).time = s.time := rfl
@[simp] theorem State.endMove_pins (s : State) : (s.endMove).pins = s.pins := rfl
@[simp] theorem State.endMove_trace (s : State) : (s.endMove).trace = s.trace := rfl
@[simp] theorem State.endMove_offered (s : State) : (s.endMove).offered = s.offered := rfl
@[simp] theorem State.endMove_schedule (s : State) : (s.endMove).schedule = s.schedule := rfl
@[simp] theorem State.endMove_draws (s : State) : (s.endMove).draws = s.draws := rfl

/-! ### Moving the scan -/

@[simp] theorem State.scanTo_cfg (s : State) (i : Nat) : (s.scanTo i).cfg = s.cfg := rfl
@[simp] theorem State.scanTo_capacity (s : State) (i : Nat) : (s.scanTo i).capacity = s.capacity := rfl
@[simp] theorem State.scanTo_count (s : State) (i : Nat) : (s.scanTo i).count = s.count := rfl
@[simp] theorem State.scanTo_busy (s : State) (i : Nat) : (s.scanTo i).busy = s.busy := rfl
@[simp] theorem State.scanTo_scan (s : State) (i : Nat) : (s.scanTo i).scan = BitVec.ofNat 32 i := rfl
@[simp] theorem State.scanTo_slots (s : State) (i : Nat) : (s.scanTo i).slots = s.slots := rfl
@[simp] theorem State.scanTo_time (s : State) (i : Nat) : (s.scanTo i).time = s.time := rfl
@[simp] theorem State.scanTo_pins (s : State) (i : Nat) : (s.scanTo i).pins = s.pins := rfl
@[simp] theorem State.scanTo_trace (s : State) (i : Nat) : (s.scanTo i).trace = s.trace := rfl
@[simp] theorem State.scanTo_offered (s : State) (i : Nat) : (s.scanTo i).offered = s.offered := rfl
@[simp] theorem State.scanTo_schedule (s : State) (i : Nat) : (s.scanTo i).schedule = s.schedule := rfl
@[simp] theorem State.scanTo_draws (s : State) (i : Nat) : (s.scanTo i).draws = s.draws := rfl

/-! ### Letting time pass -/

@[simp] theorem State.later_cfg (s : State) (a : Nat) : (s.later a).cfg = s.cfg := rfl
@[simp] theorem State.later_capacity (s : State) (a : Nat) : (s.later a).capacity = s.capacity := rfl
@[simp] theorem State.later_count (s : State) (a : Nat) : (s.later a).count = s.count := rfl
@[simp] theorem State.later_busy (s : State) (a : Nat) : (s.later a).busy = s.busy := rfl
@[simp] theorem State.later_scan (s : State) (a : Nat) : (s.later a).scan = s.scan := rfl
@[simp] theorem State.later_slots (s : State) (a : Nat) : (s.later a).slots = s.slots := rfl
@[simp] theorem State.later_time (s : State) (a : Nat) : (s.later a).time = s.time + a := rfl
@[simp] theorem State.later_pins (s : State) (a : Nat) : (s.later a).pins = s.pins := rfl
@[simp] theorem State.later_trace (s : State) (a : Nat) : (s.later a).trace = s.trace := rfl
@[simp] theorem State.later_offered (s : State) (a : Nat) : (s.later a).offered = s.offered := rfl
@[simp] theorem State.later_schedule (s : State) (a : Nat) : (s.later a).schedule = s.schedule := rfl
@[simp] theorem State.later_draws (s : State) (a : Nat) : (s.later a).draws = s.draws := rfl

/-! ### Only responding -/

@[simp] theorem State.respondedOnly_cfg (s : State) (st : BitVec 4) (d : Word) : (s.respondedOnly st d).cfg = s.cfg := rfl
@[simp] theorem State.respondedOnly_capacity (s : State) (st : BitVec 4) (d : Word) : (s.respondedOnly st d).capacity = s.capacity := rfl
@[simp] theorem State.respondedOnly_count (s : State) (st : BitVec 4) (d : Word) : (s.respondedOnly st d).count = s.count := rfl
@[simp] theorem State.respondedOnly_busy (s : State) (st : BitVec 4) (d : Word) : (s.respondedOnly st d).busy = s.busy := rfl
@[simp] theorem State.respondedOnly_scan (s : State) (st : BitVec 4) (d : Word) : (s.respondedOnly st d).scan = s.scan := rfl
@[simp] theorem State.respondedOnly_slots (s : State) (st : BitVec 4) (d : Word) : (s.respondedOnly st d).slots = s.slots := rfl
@[simp] theorem State.respondedOnly_time (s : State) (st : BitVec 4) (d : Word) : (s.respondedOnly st d).time = s.time := rfl
@[simp] theorem State.respondedOnly_pins (s : State) (st : BitVec 4) (d : Word) : (s.respondedOnly st d).pins = s.pins := rfl
@[simp] theorem State.respondedOnly_trace (s : State) (st : BitVec 4) (d : Word) : (s.respondedOnly st d).trace = s.trace ++ [.respond st d] := rfl
@[simp] theorem State.respondedOnly_offered (s : State) (st : BitVec 4) (d : Word) : (s.respondedOnly st d).offered = s.offered := rfl
@[simp] theorem State.respondedOnly_schedule (s : State) (st : BitVec 4) (d : Word) : (s.respondedOnly st d).schedule = s.schedule := rfl
@[simp] theorem State.respondedOnly_draws (s : State) (st : BitVec 4) (d : Word) : (s.respondedOnly st d).draws = s.draws := rfl

end Sys2Proof.Machine
end

