-- ==== Sys2Proof/Laws/Ops.lean ====
section
/-! SUPPORT. One law per shared operation: everything that failing, succeeding, reading and writing a slot, the registered
slots and a registration can do. -/

namespace Sys2Proof.Machine

@[simp] theorem statusOk_eq : statusOk = 0 := rfl

/-- Responding changes the trace alone (R109, R111). -/
theorem State.respond_eq (s : State) (status : BitVec 4) (data : Word) : s.respond status data = s.respondedOnly status data :=
  rfl

/-- `fail E` answers, and does nothing but respond (R111). -/
theorem fail_eq (e : Error) (s : State) : fail e s = .next (s.respondedOnly e.code 0) := rfl

theorem succeed_eq (data : Word) (s : State) : succeed data s = .next (s.respondedOnly 0 data) := rfl

/-! ### Reading slots -/

theorem State.readSlot_eq_some {s : State} {i : Nat} {m : Slot} :
    s.readSlot i = some m ↔ i < s.count.toNat ∧ s.slots[i]? = some m := by
  unfold State.readSlot
  split <;> simp_all

theorem State.readSlot_eq_none {s : State} {i : Nat} :
    s.readSlot i = none ↔ s.count.toNat ≤ i ∨ s.slots.length ≤ i := by
  unfold State.readSlot
  split
  · simp; omega
  · simp only [true_iff]; omega

theorem State.mem_registered {s : State} {m : Slot} :
    m ∈ s.registered ↔ ∃ i, i < s.count.toNat ∧ s.slots[i]? = some m := by
  simp only [State.registered, List.mem_iff_getElem?, List.getElem?_take]
  constructor
  · rintro ⟨i, hi⟩
    split at hi
    · exact ⟨i, ‹_›, hi⟩
    · cases hi
  · rintro ⟨i, hi, h⟩
    exact ⟨i, by rw [if_pos hi, h]⟩

theorem State.allDone_iff {s : State} : s.allDone = true ↔ ∀ m ∈ s.registered, m.remaining = 0 := by
  simp [State.allDone]

theorem State.not_allDone_iff {s : State} : s.allDone = false ↔ ∃ m ∈ s.registered, m.remaining ≠ 0 := by
  simp [State.allDone]

/-- The registered slots after writing slot `i`. -/
theorem State.mem_registered_writeSlot {s : State} {i : Nat} {v m : Slot} (h : m ∈ (s.writeSlot i v).registered) :
    (m = v ∧ i < s.count.toNat) ∨ m ∈ s.registered := by
  obtain ⟨j, hj, hm⟩ := State.mem_registered.1 h
  simp only [State.writeSlot_slots, State.writeSlot_count, List.getElem?_set] at hj hm
  split at hm
  · next hij =>
    split at hm
    · cases hm; exact .inl ⟨rfl, hij ▸ hj⟩
    · cases hm
  · exact .inr (State.mem_registered.2 ⟨j, hj, hm⟩)

/-- A state with no registered motor: `count` is 0. -/
theorem State.registered_of_count_zero {s : State} (h : s.count = 0) : s.registered = [] := by
  simp [State.registered, h]

/-! ### Registration -/

/-- Everything that a registration can do (R68): fail for want of a free slot, fail for its step count, or fill slot
`count`. -/
theorem registerMotor_cases {m : Slot} {ps : List Word} {k : Nat} {s t : State} (h : registerMotor m ps k s = .next t) :
    (s.capacity.toNat ≤ s.count.toNat ∧ t = s.respondedOnly 2 0) ∨
    (s.count.toNat < s.capacity.toNat ∧ m.spr.toInt ≤ 0 ∧ t = s.respondedOnly 3 0) ∨
    (s.count.toNat < s.capacity.toNat ∧ 0 < m.spr.toInt ∧ s.count.toNat < s.slots.length ∧
      t = { s with
              slots := s.slots.set s.count.toNat m
              pins := ps.foldl sinkConfigured s.pins
              trace := s.trace ++ ps.map .sinkConfigure ++ [.respond 0 s.count]
              count := s.count + 1
              draws := s.draws + k }) := by
  unfold registerMotor at h
  split at h
  · next hc => exact .inl ⟨by simpa [BitVec.le_def] using hc, by rw [fail_eq] at h; cases h; rfl⟩
  · next hc =>
    have hc : s.count.toNat < s.capacity.toNat := by simpa [BitVec.le_def] using hc
    split at h
    · next hs => exact .inr (.inl ⟨hc, hs, by rw [fail_eq] at h; cases h; rfl⟩)
    · next hs =>
      split at h
      · cases h
      · next hl =>
        refine .inr (.inr ⟨hc, by omega, by omega, ?_⟩)
        rw [succeed_eq] at h
        cases h
        simp only [State.respondedOnly, State.emitAll_cfg, State.emitAll_capacity, State.emitAll_busy,
          State.emitAll_scan, State.emitAll_slots, State.emitAll_time, State.emitAll_pins, State.emitAll_trace,
          State.emitAll_offered, State.emitAll_schedule, State.writeSlot_cfg, State.writeSlot_capacity,
          State.writeSlot_busy, State.writeSlot_scan, State.writeSlot_slots, State.writeSlot_time,
          State.writeSlot_pins, State.writeSlot_trace, State.writeSlot_offered, State.writeSlot_schedule,
          List.foldl_map]
        rfl

theorem registerMotor_full {m : Slot} {ps : List Word} {k : Nat} {s : State} (h : s.capacity.toNat ≤ s.count.toNat) :
    registerMotor m ps k s = .next (s.respondedOnly 2 0) := by
  unfold registerMotor
  rw [if_pos (by simpa [BitVec.le_def] using h)]
  rfl

theorem registerMotor_badCount {m : Slot} {ps : List Word} {k : Nat} {s : State} (h : s.count.toNat < s.capacity.toNat)
    (hs : m.spr.toInt ≤ 0) : registerMotor m ps k s = .next (s.respondedOnly 3 0) := by
  unfold registerMotor
  rw [if_neg (by simpa [BitVec.le_def] using h), if_pos hs]
  rfl

/-- A registration whose preconditions hold answers a next state. -/
theorem registerMotor_completes {m : Slot} {ps : List Word} {k : Nat} {s : State} (h : s.count.toNat < s.capacity.toNat)
    (hs : 0 < m.spr.toInt) (hl : s.count.toNat < s.slots.length) : ∃ t, registerMotor m ps k s = .next t := by
  unfold registerMotor
  rw [if_neg (by simpa [BitVec.le_def] using h), if_neg (by omega), if_neg (by omega)]
  exact ⟨_, rfl⟩

/-- What `SinkConfigure` of several pins leaves at each pin. -/
theorem pinGet_foldl_sinkConfigured {l : List (Nat × PinState)} (hl : PinsWf l) (ps : List Word) (q : Word) :
    pinGet (ps.foldl sinkConfigured l) q.toNat =
      if q ∈ ps then { mode := .output, level := (pinGet l q.toNat).level } else pinGet l q.toNat := by
  induction ps generalizing l with
  | nil => simp
  | cons p ps ih =>
    rw [List.foldl_cons, ih (l := sinkConfigured l p) (sinkAfter_wf hl (.sinkConfigure p)), pinGet_sinkConfigured hl]
    by_cases h1 : q ∈ ps <;> by_cases h2 : q = p <;> simp [h1, h2]

theorem foldl_sinkConfigured_wf {l : List (Nat × PinState)} (hl : PinsWf l) (ps : List Word) :
    PinsWf (ps.foldl sinkConfigured l) := by
  induction ps generalizing l with
  | nil => exact hl
  | cons p ps ih => exact ih (sinkAfter_wf hl (.sinkConfigure p))

end Sys2Proof.Machine
end

