-- ==== Sys2Proof/Laws/Motion.lean ====
section
/-! SUPPORT. The laws of motion: the setup of a move, the step of a slot, and everything an evaluation can do. -/

namespace Sys2Proof.Machine

/-! ### The setup of a move -/

@[simp] theorem withTargets_length (ts : List Word) (slots : List Slot) (h : ts.length ≤ slots.length) :
    (withTargets ts slots).length = slots.length := by
  induction ts generalizing slots with
  | nil => rfl
  | cons t ts ih =>
    cases slots with
    | nil => simp at h
    | cons m slots => simp only [List.length_cons] at h; simp [withTargets, ih slots (by omega)]

/-- The setup loop gives target `k` to slot `k` and leaves the slots beyond the targets alone (R83). -/
theorem withTargets_getElem? (ts : List Word) (slots : List Slot) (k : Nat) (h : ts.length ≤ slots.length) :
    (withTargets ts slots)[k]? =
      match ts[k]? with
      | some t => slots[k]?.map fun m => m.withTarget t
      | none => slots[k]? := by
  induction ts generalizing slots k with
  | nil => simp [withTargets]
  | cons t ts ih =>
    cases slots with
    | nil => simp at h
    | cons m slots =>
      simp only [List.length_cons] at h
      cases k with
      | zero => simp [withTargets]
      | succ k => simpa [withTargets] using ih slots k (by omega)

theorem absWord_toNat (v : Word) : (absWord v.toInt).toNat = v.toInt.natAbs := by
  have h1 := BitVec.le_toInt v
  have h2 := BitVec.toInt_lt (x := v)
  simp only [absWord, BitVec.toNat_ofNat]
  apply Nat.mod_eq_of_lt
  simp at h1 h2
  omega

theorem absWord_eq_zero (v : Word) : absWord v.toInt = 0 ↔ v.toInt = 0 := by
  constructor
  · intro h
    have := absWord_toNat v
    rw [h] at this
    simp at this
    exact Int.natAbs_eq_zero.1 this.symm
  · intro h; simp [absWord, h]

/-- Everything that MOVE_BY can do (R83, R85). -/
theorem execMoveBy_cases {ts : List Word} {s t : State} (h : execMoveBy ts s = .next t) :
    (ts.length ≠ s.count.toNat ∧ t = s.respondedOnly 5 0) ∨
    (ts.length = s.count.toNat ∧ s.count.toNat ≤ s.slots.length ∧
      (({ s with slots := withTargets ts s.slots } : State).allDone = true ∧
          t = { s with slots := withTargets ts s.slots }.respondedOnly 0 0 ∨
        ({ s with slots := withTargets ts s.slots } : State).allDone = false ∧
          t = { s with slots := withTargets ts s.slots, busy := true, scan := 0 })) := by
  unfold execMoveBy at h
  split at h
  · next hn => exact .inl ⟨hn, by rw [fail_eq] at h; cases h; rfl⟩
  · next hn =>
    rw [ne_eq, not_not] at hn
    split at h
    · cases h
    · next hl =>
      refine .inr ⟨hn, by omega, ?_⟩
      dsimp only at h
      split at h
      · next hd => exact .inl ⟨hd, by rw [succeed_eq] at h; cases h; rfl⟩
      · next hd => exact .inr ⟨by simpa using hd, by cases h; rfl⟩

theorem execMoveBy_completes {ts : List Word} {s : State} (h : ts.length = s.count.toNat)
    (hl : s.count.toNat ≤ s.slots.length) : ∃ t, execMoveBy ts s = .next t := by
  unfold execMoveBy
  rw [if_neg (by simpa using h), if_neg (by omega)]
  dsimp only
  split
  · exact ⟨_, rfl⟩
  · exact ⟨_, rfl⟩

/-- Whether every counter is 0 after the setup, from the targets. -/
theorem allDone_withTargets {ts : List Word} {s : State} (h : ts.length = s.count.toNat) (hl : s.count.toNat ≤ s.slots.length) :
    ({ s with slots := withTargets ts s.slots } : State).allDone = true ↔ ∀ t ∈ ts, t.toInt = 0 := by
  rw [State.allDone_iff]
  constructor
  · intro hd t ht
    obtain ⟨k, hk⟩ := List.mem_iff_getElem?.1 ht
    have hkl : k < ts.length := (List.getElem?_eq_some_iff.1 hk).1
    obtain ⟨m, hm⟩ : ∃ m, s.slots[k]? = some m := ⟨_, List.getElem?_eq_getElem (by omega)⟩
    have := hd (m.withTarget t) (State.mem_registered.2 ⟨k, by simpa [← h] using hkl, by
      simp [withTargets_getElem? ts s.slots k (by omega), hk, hm]⟩)
    exact (absWord_eq_zero t).1 this
  · intro hz m hm
    obtain ⟨k, hk, hm⟩ := State.mem_registered.1 hm
    have hk : k < ts.length := by simpa [h] using hk
    dsimp only at hm
    rw [withTargets_getElem? ts s.slots k (by omega), List.getElem?_eq_getElem hk] at hm
    obtain ⟨m', -, rfl⟩ := Option.map_eq_some_iff.1 hm
    exact (absWord_eq_zero _).2 (hz _ (List.getElem_mem hk))

/-! ### The step of a slot -/

theorem nextIndex_forward {idx spr : Word} (h : idx.toNat < spr.toNat) :
    (nextIndex .forward idx spr).toNat = if idx.toNat + 1 = spr.toNat then 0 else idx.toNat + 1 := by
  have := spr.isLt
  simp only [nextIndex, BitVec.toNat_ofNat]
  split
  · next e => simp [e]
  · next e => rw [Nat.mod_eq_of_lt (a := idx.toNat + 1) (by omega)]; exact Nat.mod_eq_of_lt (by omega)

theorem nextIndex_backward {idx spr : Word} (h : idx.toNat < spr.toNat) :
    (nextIndex .backward idx spr).toNat = if idx.toNat = 0 then spr.toNat - 1 else idx.toNat - 1 := by
  have hs := spr.isLt
  have key : ((idx.toNat : Int) - 1 + spr.toNat) % spr.toNat = ((if idx.toNat = 0 then spr.toNat - 1 else idx.toNat - 1 : Nat) : Int) := by
    split
    · next e =>
      rw [e, show ((0 : Nat) : Int) - 1 + (spr.toNat : Int) = ((spr.toNat - 1 : Nat) : Int) by omega]
      exact Int.emod_eq_of_lt (by omega) (by omega)
    · next e =>
      rw [Int.add_emod_right, show (idx.toNat : Int) - 1 = ((idx.toNat - 1 : Nat) : Int) by omega]
      exact Int.emod_eq_of_lt (by omega) (by omega)
  simp only [nextIndex] at key ⊢
  rw [key, BitVec.ofInt_natCast, BitVec.toNat_ofNat]
  apply Nat.mod_eq_of_lt
  split <;> omega

theorem nextIndex_lt {idx spr : Word} (h : idx.toNat < spr.toNat) (d : Direction) : (nextIndex d idx spr).toNat < spr.toNat := by
  cases d with
  | forward => rw [nextIndex_forward h]; split <;> omega
  | backward => rw [nextIndex_backward h]; split <;> omega

/-- One step moves the index by one modulo `spr`, up or down (R91). -/
theorem nextIndex_emod {idx spr : Word} (h : idx.toNat < spr.toNat) (d : Direction) :
    ((nextIndex d idx spr).toNat : Int) = (idx.toNat + (if d = .forward then 1 else -1)) % spr.toNat := by
  cases d with
  | forward =>
    rw [nextIndex_forward h, if_pos rfl]
    split
    · next e => rw [show (idx.toNat : Int) + 1 = spr.toNat by omega]; simp
    · next e => rw [Int.emod_eq_of_lt (by omega) (by omega)]; push_cast; rfl
  | backward =>
    rw [nextIndex_backward h, if_neg (show ¬ Direction.backward = Direction.forward by decide)]
    split
    · next e =>
      rw [e, show ((0 : Nat) : Int) + -1 = ((spr.toNat - 1 : Nat) : Int) + spr.toNat * (-1) by omega,
        Int.add_mul_emod_self_left, Int.emod_eq_of_lt (by omega) (by omega)]
    · next e => rw [Int.emod_eq_of_lt (by omega) (by omega)]; omega

/-- Taking one from a counter that is not 0. -/
theorem remaining_sub_one {r : Word} (h : r ≠ 0) : (r - 1).toNat + 1 = r.toNat := by
  have h0 : r.toNat ≠ 0 := fun e => h (BitVec.eq_of_toNat_eq (by simpa using e))
  have := r.isLt
  simp only [BitVec.toNat_sub]
  simp
  omega

@[simp] theorem Slot.stepped_wiring (m : Slot) (now : Word) : (m.stepped now).wiring = m.wiring := rfl
@[simp] theorem Slot.stepped_spr (m : Slot) (now : Word) : (m.stepped now).spr = m.spr := rfl
@[simp] theorem Slot.stepped_interval (m : Slot) (now : Word) : (m.stepped now).interval = m.interval := rfl
@[simp] theorem Slot.stepped_direction (m : Slot) (now : Word) : (m.stepped now).direction = m.direction := rfl
@[simp] theorem Slot.stepped_lastStep (m : Slot) (now : Word) : (m.stepped now).lastStep = now := rfl
@[simp] theorem Slot.stepped_remaining (m : Slot) (now : Word) : (m.stepped now).remaining = m.remaining - 1 := rfl
@[simp] theorem Slot.stepped_stepIndex (m : Slot) (now : Word) :
    (m.stepped now).stepIndex = nextIndex m.direction m.stepIndex m.spr := rfl
@[simp] theorem Slot.stepped_pins (m : Slot) (now : Word) : (m.stepped now).pins = m.pins := rfl
@[simp] theorem patternEvents_stepped (ph : Fin 4) (m : Slot) (now : Word) :
    patternEvents ph (m.stepped now) = patternEvents ph m := rfl

theorem Slot.stepsAt_iff {m : Slot} {now : Word} :
    m.stepsAt now = true ↔ m.remaining ≠ 0 ∧ m.interval.toNat ≤ (now - m.lastStep).toNat := by
  simp [Slot.stepsAt, gateOpen]

/-- A step keeps a slot legal. -/
theorem Slot.stepped_legal {m : Slot} (h : m.Legal) (hr : m.remaining ≠ 0) (now : Word) : (m.stepped now).Legal := by
  obtain ⟨h1, h2, h3, h4⟩ := h
  refine ⟨h1, nextIndex_lt h2 _, h3, ?_⟩
  have := remaining_sub_one hr
  show (m.remaining - 1).toNat ≤ 2 ^ 31
  omega

/-! ### The pattern -/

/-- Each write of a pattern goes to a pin of the slot, one write for each pin in pin order (R99, R102). -/
theorem patternEvents_eq_zip (ph : Fin 4) (m : Slot) :
    ∃ ls : List Level, ls.length = m.pins.length ∧
      patternEvents ph m = List.zipWith Event.sinkWrite m.pins ls := by
  unfold patternEvents Slot.pins
  cases m.wiring with
  | twoWire => exact ⟨[_, _], rfl, rfl⟩
  | fourWire => exact ⟨[_, _, _, _], rfl, rfl⟩

theorem mem_patternEvents {ph : Fin 4} {m : Slot} {e : Event} (h : e ∈ patternEvents ph m) :
    ∃ p ∈ m.pins, ∃ l, e = .sinkWrite p l := by
  unfold patternEvents at h
  unfold Slot.pins
  cases hw : m.wiring <;> simp only [hw, List.mem_cons, List.not_mem_nil, or_false] at h ⊢
  · rcases h with rfl | rfl
    · exact ⟨_, .inl rfl, _, rfl⟩
    · exact ⟨_, .inr rfl, _, rfl⟩
  · rcases h with rfl | rfl | rfl | rfl
    · exact ⟨_, .inl rfl, _, rfl⟩
    · exact ⟨_, .inr (.inl rfl), _, rfl⟩
    · exact ⟨_, .inr (.inr (.inl rfl)), _, rfl⟩
    · exact ⟨_, .inr (.inr (.inr rfl)), _, rfl⟩

theorem patternEvents_length_le (ph : Fin 4) (m : Slot) : (patternEvents ph m).length ≤ 4 := by
  unfold patternEvents
  cases m.wiring <;> simp

@[simp] theorem responseOf_patternEvents (ph : Fin 4) (m : Slot) : responseOf (patternEvents ph m) = none := by
  unfold patternEvents
  cases m.wiring <;> rfl

/-! ### The evaluation -/

/-- The slot after an evaluation at a clock sample: stepped when it has steps left and its gate holds (R87). -/
def Slot.evaluated (m : Slot) (now : Word) : Slot := if m.stepsAt now then m.stepped now else m

/-- The writes of an evaluation of a slot. -/
def Slot.writes (m : Slot) (now : Word) : List Event :=
  if m.stepsAt now then patternEvents (phaseOf (m.stepped now).stepIndex) m else []

theorem Slot.evaluated_legal {m : Slot} (h : m.Legal) (now : Word) : (m.evaluated now).Legal := by
  unfold Slot.evaluated
  split
  · next hs => exact Slot.stepped_legal h (Slot.stepsAt_iff.1 hs).1 now
  · exact h

@[simp] theorem responseOf_writes (m : Slot) (now : Word) : responseOf (m.writes now) = none := by
  unfold Slot.writes
  split
  · exact responseOf_patternEvents _ _
  · rfl

theorem Slot.writes_length_le (m : Slot) (now : Word) : (m.writes now).length ≤ 4 := by
  unfold Slot.writes
  split
  · exact patternEvents_length_le _ _
  · simp

theorem Slot.mem_writes {m : Slot} {now : Word} {e : Event} (h : e ∈ m.writes now) :
    ∃ p ∈ m.pins, ∃ l, e = .sinkWrite p l := by
  unfold Slot.writes at h
  split at h
  · exact mem_patternEvents h
  · simp at h

/-- The state after the scanned slot's evaluation, before the end of the action. -/
def State.afterSlot (s : State) (m : Slot) : State :=
  { s with
    slots := s.slots.set s.scan.toNat (m.evaluated s.nowMs)
    trace := s.trace ++ m.writes s.nowMs
    pins := (m.writes s.nowMs).foldl sinkAfter s.pins }

/-- An evaluation of a registered slot answers a next state. -/
theorem evaluate_eq {s : State} {m : Slot} (hc : s.scan.toNat < s.count.toNat) (hm : s.slots[s.scan.toNat]? = some m) :
    evaluate s = .next (finishEvaluation s.scan.toNat (s.afterSlot m)) := by
  unfold evaluate
  rw [State.readSlot_eq_some.2 ⟨hc, hm⟩]
  dsimp only
  congr 2
  unfold State.afterSlot Slot.evaluated Slot.writes
  split
  · unfold stepMotor emitStepPattern
    rw [patternEvents_stepped]
    cases s
    simp only [State.writeSlot]
    have : ∀ (t : State) (es : List Event),
        t.emitAll es = { t with trace := t.trace ++ es, pins := es.foldl sinkAfter t.pins } := by
      intro t es
      induction es generalizing t with
      | nil => simp [State.emitAll]
      | cons e es ih => simp [State.emitAll, ih, State.emit]
    rw [this]
  · obtain ⟨hlt, hget⟩ := List.getElem?_eq_some_iff.1 hm
    subst hget
    simp

/-- Everything that an evaluation can do (R87): the scanned slot is registered and is evaluated; then the move is over, or
the scan moves on. -/
theorem evaluate_cases {s t : State} (h : evaluate s = .next t) :
    ∃ m, s.scan.toNat < s.count.toNat ∧ s.slots[s.scan.toNat]? = some m ∧
      ((s.afterSlot m).allDone = true ∧ t = (s.afterSlot m).endMove.respondedOnly 0 0 ∨
        (s.afterSlot m).allDone = false ∧
          t = (s.afterSlot m).scanTo ((s.scan.toNat + 1) % s.count.toNat)) := by
  have h0 := h
  unfold evaluate at h0
  split at h0
  · cases h0
  · next m hm =>
    obtain ⟨hc, hs⟩ := State.readSlot_eq_some.1 hm
    refine ⟨m, hc, hs, ?_⟩
    rw [evaluate_eq hc hs] at h
    cases h
    unfold finishEvaluation
    split
    · next hd => exact .inl ⟨hd, rfl⟩
    · next hd => exact .inr ⟨by simpa using hd, rfl⟩

/-- The slots after an evaluation. -/
theorem State.afterSlot_getElem? {s : State} {m : Slot} (hm : s.slots[s.scan.toNat]? = some m) (j : Nat) :
    (s.afterSlot m).slots[j]? = if j = s.scan.toNat then some (m.evaluated s.nowMs) else s.slots[j]? := by
  have hl := (List.getElem?_eq_some_iff.1 hm).1
  simp only [State.afterSlot, List.getElem?_set]
  by_cases h : s.scan.toNat = j
  · subst h; simp [hl]
  · simp [h, Ne.symm h]

end Sys2Proof.Machine
end

