-- ==== Sys2Proof/Laws/Commands.lean ====
section
/-! SUPPORT. The laws of the commands: everything that each command can do, and everything that accepting one can do. -/

namespace Sys2Proof.Machine

/-! ### Events -/

@[simp] theorem newEvents_append {s t : State} {es : List Event} (h : t.trace = s.trace ++ es) : newEvents s t = es := by
  simp [newEvents, h]

theorem newEvents_respondedOnly (s : State) (st : BitVec 4) (d : Word) :
    newEvents s (s.respondedOnly st d) = [.respond st d] := newEvents_append rfl

theorem code_ne_zero (e : Error) : e.code ≠ 0 := by cases e <;> decide

theorem responseOf_append (es : List Event) (h : responseOf es = none) (st : BitVec 4) (d : Word) :
    responseOf (es ++ [.respond st d]) = some (st, d) := by
  induction es with
  | nil => rfl
  | cons e es ih =>
    cases e with
    | respond s d => cases h
    | _ => exact ih h

theorem not_mem_of_responseOf {es : List Event} (h : responseOf es = none) (st : BitVec 4) (d : Word) :
    .respond st d ∉ es := by
  induction es with
  | nil => simp
  | cons e es ih =>
    cases e with
    | respond s d => cases h
    | _ => simpa using ih h

/-! ### Arithmetic of the operands -/

/-- A positive signed operand is its unsigned reading (R58). -/
theorem toInt_eq_toNat_of_pos {r : Word} (h : 0 < r.toInt) : r.toInt = r.toNat := by
  rw [BitVec.toInt_eq_toNat_cond] at h ⊢
  split at h
  · simp [*]
  · have := r.isLt
    omega

/-- The interval is the exact quotient, which always fits the register (R72). -/
theorem intervalOf_toNat (spr rpm : Word) : (intervalOf spr rpm).toNat = 60000 / (spr.toNat * rpm.toNat) := by
  simp only [intervalOf, BitVec.toNat_ofNat]
  apply Nat.mod_eq_of_lt
  have := Nat.div_le_self Config.msPerMin (spr.toNat * rpm.toNat)
  simp only [Config.msPerMin] at *
  omega

/-- The modular difference of two words (R8). -/
theorem sub_toNat (a b : Word) : ((a - b).toNat : Int) = ((a.toNat : Int) - b.toNat) % 2 ^ 32 := by
  have := a.isLt
  have := b.isLt
  rw [BitVec.toNat_sub]
  omega

/-! ### The commands -/

/-- Everything that CONSTRUCT can do (R67). -/
theorem execConstruct_cases {cap : Word} {s t : State} (h : execConstruct cap s = .next t) :
    ((cap.toInt ≤ 0 ∨ cap.toInt > (s.cfg.maxSlots : Int)) ∧ t = s.respondedOnly 1 0) ∨
    ((0 < cap.toInt ∧ cap.toInt ≤ (s.cfg.maxSlots : Int)) ∧ t = { s with capacity := cap, count := 0 }.respondedOnly 0 0) := by
  unfold execConstruct at h
  split at h
  · next hc => exact .inl ⟨hc, by cases h; rfl⟩
  · next hc => exact .inr ⟨by omega, by cases h; rfl⟩

/-- Everything that SET_SPEED can do (R71). -/
theorem execSetSpeed_cases {motor rpm : Word} {s t : State} (h : execSetSpeed motor rpm s = .next t) :
    (s.count.toNat ≤ motor.toNat ∧ t = s.respondedOnly 6 0) ∨
    (motor.toNat < s.count.toNat ∧ rpm.toInt ≤ 0 ∧ t = s.respondedOnly 4 0) ∨
    (motor.toNat < s.count.toNat ∧ 0 < rpm.toInt ∧ ∃ m, s.slots[motor.toNat]? = some m ∧
      t = { s with slots := s.slots.set motor.toNat { m with interval := intervalOf m.spr rpm } }.respondedOnly 0 0) := by
  unfold execSetSpeed at h
  split at h
  · next hc => exact .inl ⟨hc, by cases h; rfl⟩
  · next hc =>
    split at h
    · next hr => exact .inr (.inl ⟨by omega, hr, by cases h; rfl⟩)
    · next hr =>
      split at h
      · cases h
      · next m hm => exact .inr (.inr ⟨by omega, by omega, m, (State.readSlot_eq_some.1 hm).2, by cases h; rfl⟩)

/-- Everything that accepting a command can do: it fails with the error that the catalogue gives it, and does nothing but
respond; or no error applies, and it responds OK as its last event, or starts a move and emits nothing (R109, R110). -/
theorem accept_cases {c : Command} {s t : State} (h : accept c s = .next t) :
    (∃ e, errorOf s (decode c) = some e ∧ t = s.respondedOnly e.code 0) ∨
    (errorOf s (decode c) = none ∧ ∃ i, decode c = .instr i ∧
      ((∃ evs d, t.trace = s.trace ++ evs ++ [.respond 0 d] ∧ responseOf evs = none ∧ t.busy = s.busy) ∨
        (t.trace = s.trace ∧ t.busy = true))) := by
  unfold accept at h
  split at h
  · next why hw => exact .inl ⟨_, by rw [hw]; rfl, by cases h; rfl⟩
  · next i hi =>
    rw [hi]
    cases i with
    | construct cap =>
      obtain ⟨hc, rfl⟩ | ⟨hc, rfl⟩ := execConstruct_cases h
      · exact .inl ⟨.capacityError, by simp only [errorOf]; rw [if_pos hc], rfl⟩
      · exact .inr ⟨by simp only [errorOf]; rw [if_neg (by omega)], _, rfl, .inl ⟨[], 0, by simp [State.respondedOnly], rfl, rfl⟩⟩
    | reg2 spr a b =>
      obtain ⟨hc, rfl⟩ | ⟨hc, hs, rfl⟩ | ⟨hc, hs, hl, rfl⟩ := registerMotor_cases h
      · exact .inl ⟨.capacityExceeded, by simp only [errorOf]; rw [if_pos hc], rfl⟩
      · exact .inl ⟨.invalidStepCount, by simp only [errorOf]; rw [if_neg (by omega), if_pos (show spr.toInt ≤ 0 from hs)], rfl⟩
      · have hs : 0 < spr.toInt := hs
        exact .inr ⟨by simp only [errorOf]; rw [if_neg (by omega), if_neg (by omega)], _, rfl, .inl ⟨_, _, rfl, rfl, rfl⟩⟩
    | reg4 spr a b c d =>
      obtain ⟨hc, rfl⟩ | ⟨hc, hs, rfl⟩ | ⟨hc, hs, hl, rfl⟩ := registerMotor_cases h
      · exact .inl ⟨.capacityExceeded, by simp only [errorOf]; rw [if_pos hc], rfl⟩
      · exact .inl ⟨.invalidStepCount, by simp only [errorOf]; rw [if_neg (by omega), if_pos (show spr.toInt ≤ 0 from hs)], rfl⟩
      · have hs : 0 < spr.toInt := hs
        exact .inr ⟨by simp only [errorOf]; rw [if_neg (by omega), if_neg (by omega)], _, rfl, .inl ⟨_, _, rfl, rfl, rfl⟩⟩
    | setSpeed motor rpm =>
      obtain ⟨hc, rfl⟩ | ⟨hc, hr, rfl⟩ | ⟨hc, hr, m, -, rfl⟩ := execSetSpeed_cases h
      · exact .inl ⟨.invalidMotorIndex, by simp only [errorOf]; rw [if_pos hc], rfl⟩
      · exact .inl ⟨.invalidSpeed, by simp only [errorOf]; rw [if_neg (by omega), if_pos hr], rfl⟩
      · exact .inr ⟨by simp only [errorOf]; rw [if_neg (by omega), if_neg (by omega)], _, rfl, .inl ⟨[], 0, by simp [State.respondedOnly], rfl, rfl⟩⟩
    | moveBy ts =>
      obtain ⟨hc, rfl⟩ | ⟨hc, -, ⟨-, rfl⟩ | ⟨-, rfl⟩⟩ := execMoveBy_cases h
      · exact .inl ⟨.argumentCountMismatch, by simp only [errorOf]; rw [if_pos hc], rfl⟩
      · exact .inr ⟨by simp only [errorOf]; rw [if_neg (by omega)], _, rfl, .inl ⟨[], 0, by simp [State.respondedOnly], rfl, rfl⟩⟩
      · exact .inr ⟨by simp only [errorOf]; rw [if_neg (by omega)], _, rfl, .inr ⟨rfl, rfl⟩⟩
    | version =>
      cases h
      exact .inr ⟨rfl, _, rfl, .inl ⟨[], _, by simp; rfl, rfl, rfl⟩⟩

theorem legal_of_noResponse {es : List Event} (h : responseOf es = none) : ∀ e ∈ es, e.Legal := by
  intro e he
  cases e with
  | respond st d => exact absurd he (not_mem_of_responseOf h _ _)
  | _ => trivial

theorem legal_code (e : Error) : (Event.respond e.code 0).Legal := by cases e <;> decide

end Sys2Proof.Machine
end

