-- ==== Sys2Proof/Laws/Decode.lean ====
section
/-! SUPPORT. Laws of the header word and of decoding: the fields of a header that was put together, and that a header
decodes to an operation exactly when it is that operation's header. -/

namespace Sys2Proof

@[simp] theorem headerOp_makeHeader (n op : BitVec 8) : headerOp (makeHeader n op) = op := by
  ext i hi
  simp only [headerOp, makeHeader, BitVec.getElem_extractLsb', BitVec.getLsbD_append]
  simp [hi]

@[simp] theorem headerN_makeHeader (n op : BitVec 8) : headerN (makeHeader n op) = n := by
  ext i hi
  simp only [headerN, makeHeader, BitVec.getElem_extractLsb', BitVec.getLsbD_append]
  simp [hi]

@[simp] theorem headerRsv_makeHeader (n op : BitVec 8) : headerRsv (makeHeader n op) = 0 := by
  ext i hi
  have h1 : ¬ 16 + i < 8 := by omega
  have h2 : ¬ 16 + i - 8 < 8 := by omega
  simp only [headerRsv, makeHeader, BitVec.getElem_extractLsb', BitVec.getLsbD_append]
  simp [h1, h2]

/-- A header whose reserved field is 0 is put together from its two other fields (R51). -/
theorem eq_makeHeader {h : Word} (hr : headerRsv h = 0) : h = makeHeader (headerN h) (headerOp h) := by
  apply BitVec.eq_of_getLsbD_eq
  intro i hi
  simp only [makeHeader, BitVec.getLsbD_append, headerN, headerOp, BitVec.getLsbD_extractLsb']
  by_cases h8 : i < 8
  · simp [h8]
  · by_cases h16 : i < 16
    · have : i - 8 < 8 := by omega
      have e : 8 + (i - 8) = i := by omega
      simp [h8, this, e]
    · have hb : (headerRsv h).getLsbD (i - 16) = false := by simp [hr]
      have h1 : i - 16 < 16 := by omega
      have e : 16 + (i - 16) = i := by omega
      simp only [headerRsv, BitVec.getLsbD_extractLsb', h1, e, decide_true, Bool.true_and] at hb
      have h2 : ¬ i - 8 < 8 := by omega
      simp [h8, h2, hb]

/-- The header of an operation decodes to it. -/
@[simp] theorem decodeHeader_header (o : Op) : decodeHeader o.header = .op o := by
  cases o <;> simp [decodeHeader, Op.header, withoutCount]

/-- Only the header of an operation decodes to it: a header word has one meaning. -/
theorem eq_header_of_decodeHeader {h : Word} {o : Op} (hd : decodeHeader h = .op o) : h = o.header := by
  unfold decodeHeader at hd
  split at hd
  · cases hd
  · next hr =>
    rw [ne_eq, not_not] at hr
    have key := eq_makeHeader hr
    have opEq : ∀ {k : BitVec 8}, (headerOp h).toNat = k.toNat → headerOp h = k := BitVec.eq_of_toNat_eq
    have fixed : ∀ {k : BitVec 8} {o' : Op}, (headerOp h).toNat = k.toNat → withoutCount h o' = .op o →
        o'.header = makeHeader 0 k → h = o.header := by
      intro k o' hk hw ho
      unfold withoutCount at hw
      split at hw
      · cases hw
      · next hn =>
        rw [ne_eq, not_not] at hn
        cases hw
        rw [ho, key, hn, opEq hk]
    split at hd
    · next hk => exact fixed (k := 1) hk hd rfl
    · next hk => exact fixed (k := 2) hk hd rfl
    · next hk => exact fixed (k := 3) hk hd rfl
    · next hk => exact fixed (k := 4) hk hd rfl
    · next hk =>
      cases hd
      rw [key, opEq (k := 5) hk]
      simp [Op.header]
    · next hk => exact fixed (k := 6) hk hd rfl
    · cases hd

theorem decodeHeader_eq_op {h : Word} {o : Op} : decodeHeader h = .op o ↔ h = o.header :=
  ⟨eq_header_of_decodeHeader, fun e => e ▸ decodeHeader_header o⟩

/-- What a record decodes to, from what its header decodes to. -/
theorem decode_of_op {c : Command} {o : Op} (h : decodeHeader c.hdr = .op o) : decode c = .instr (operandsOf c o) := by
  simp [decode, h]

theorem decode_of_illegal {c : Command} {why : Illegal} (h : decodeHeader c.hdr = .illegal why) :
    decode c = .illegal why := by
  simp [decode, h]

/-- A record that decodes to a command has an operation's header. -/
theorem decode_eq_instr {c : Command} {i : Instr} (h : decode c = .instr i) :
    ∃ o, decodeHeader c.hdr = .op o ∧ i = operandsOf c o := by
  unfold decode at h
  split at h
  · cases h
  · next o ho => exact ⟨o, ho, by cases h; rfl⟩

/-- A record under an operation's header decodes to that operation with the record's words. -/
theorem decode_header_mk (o : Op) (args : List Word) :
    decode ⟨o.header, args⟩ = .instr (operandsOf ⟨o.header, args⟩ o) :=
  decode_of_op (c := ⟨o.header, args⟩) (decodeHeader_header o)

/-- Only an operation's header can make a record decode to a command. -/
theorem hdr_of_decode_eq_instr {c : Command} {i : Instr} (h : decode c = .instr i) :
    ∃ o : Op, c.hdr = o.header ∧ i = operandsOf c o := by
  obtain ⟨o, ho, hi⟩ := decode_eq_instr h
  exact ⟨o, eq_header_of_decodeHeader ho, hi⟩

/-- The mask of MOVE_BY's row drops the `N` field and nothing else (R64). -/
theorem makeHeader_and_moveByMask (n op : BitVec 8) : makeHeader n op &&& 0xFFFF00FF#32 = makeHeader 0 op := by
  apply BitVec.eq_of_getLsbD_eq
  intro i hi
  simp only [makeHeader, BitVec.getLsbD_and, BitVec.getLsbD_append]
  by_cases h : i < 8
  · have ones : ∀ j : Fin 8, (0xFFFF00FF#32).getLsbD j.val = true := by decide
    simp [h, ones ⟨i, h⟩]
  · by_cases h2 : i - 8 < 8
    · have zeros : ∀ j : Fin 8, (0xFFFF00FF#32).getLsbD (8 + j.val) = false := by decide
      have := zeros ⟨i - 8, h2⟩
      rw [show 8 + (i - 8) = i by omega] at this
      simp [h, h2, this]
    · simp [h, h2]

@[simp] theorem Command.arg_mk (h : Word) (args : List Word) (k : Nat) : (Command.mk h args).arg k = args.getD k 0 := rfl

end Sys2Proof
end

