-- ==== Sys2Proof/Laws/PerInstr.lean ====
section
/-! SUPPORT. The statements made per instruction (LAWS.json): the family EncodedHeader, one lemma per constructor. -/

namespace Sys2Proof.Laws.EncodedHeader

open Sys2Proof

/-- The header of the record of a well-formed instruction has `RSV = 0` and the instruction's `OP` and `N` (R51, R52, R54,
R62), and the record gives one argument word per operand (R57). -/
def Statement (i : Instr) : Prop :=
  i.wellFormed = true →
    headerRsv (encode i).hdr = 0 ∧
    (headerOp (encode i).hdr, (headerN (encode i).hdr).toNat, (encode i).args.length) =
      (match i with
      | .construct _ => (0x01, 0, 1)
      | .reg2 _ _ _ => (0x02, 0, 3)
      | .reg4 _ _ _ _ _ => (0x03, 0, 5)
      | .setSpeed _ _ => (0x04, 0, 2)
      | .moveBy targets => (0x05, targets.length, targets.length)
      | .version => (0x06, 0, 0))

theorem construct (capacity : Word) : Statement (.construct capacity) := fun _ => by
  simp [encode, Op.header]

theorem reg2 (spr pinA pinB : Word) : Statement (.reg2 spr pinA pinB) := fun _ => by
  simp [encode, Op.header]

theorem reg4 (spr pinA pinB pinC pinD : Word) : Statement (.reg4 spr pinA pinB pinC pinD) := fun _ => by
  simp [encode, Op.header]

theorem setSpeed (motor rpm : Word) : Statement (.setSpeed motor rpm) := fun _ => by
  simp [encode, Op.header]

theorem moveBy (targets : List Word) : Statement (.moveBy targets) := fun h => by
  have hl : targets.length ≤ 255 := by simpa [Instr.wellFormed] using h
  have hn : targets.length % 256 = targets.length := Nat.mod_eq_of_lt (by omega)
  simp [encode, Op.header, hn]

theorem version : Statement .version := fun _ => by
  simp [encode, Op.header]

end Sys2Proof.Laws.EncodedHeader
end

