-- ==== Sys2Proof/Laws/Step.lean ====
section
/-! SUPPORT. The laws of an evaluation's events and slots, what no command and no evaluation touches, everything that a step
can do, and what the bank invariants depend on. -/

namespace Sys2Proof.Machine

theorem evaluated_of {m : Slot} {now : Word} (h : m.stepsAt now = true) : m.evaluated now = m.stepped now := by
  simp [Slot.evaluated, h]

theorem evaluate_slots {s t : State} (h : evaluate s = .next t) : ∃ m, s.scan.toNat < s.count.toNat ∧ s.slots[s.scan.toNat]? = some m ∧
    t.slots = s.slots.set s.scan.toNat (m.evaluated s.nowMs) := by
  obtain ⟨m, hc, hm, ⟨-, rfl⟩ | ⟨-, rfl⟩⟩ := evaluate_cases h <;> exact ⟨m, hc, hm, rfl⟩

theorem evaluate_events {s t : State} (h : evaluate s = .next t) :
    ∃ evs, responseOf evs = none ∧
      ((t.busy = false ∧ t.trace = s.trace ++ evs ++ [.respond 0 0]) ∨ (t.busy = s.busy ∧ t.trace = s.trace ++ evs)) := by
  obtain ⟨m, -, -, ⟨-, rfl⟩ | ⟨-, rfl⟩⟩ := evaluate_cases h
  · exact ⟨_, responseOf_writes m s.nowMs, .inl ⟨rfl, rfl⟩⟩
  · exact ⟨_, responseOf_writes m s.nowMs, .inr ⟨rfl, rfl⟩⟩

/-- Everything that a step can do: reset, evaluate, wait, or accept the offered command (R10, R53, R87, R112, R123). -/
theorem step_cases {s t : State} (h : step s = .next t) :
    (s.tick.rst = true ∧ t = resetAction s.afterTick) ∨
    (s.tick.rst = false ∧ s.busy = true ∧ evaluate s.afterTick = .next t) ∨
    (s.tick.rst = false ∧ s.busy = false ∧ s.offered = [] ∧ t = s.afterTick) ∨
    (s.tick.rst = false ∧ s.busy = false ∧ ∃ c rest, s.offered = c :: rest ∧
      accept c (s.afterTick.offering rest) = .next t) := by
  have : stepOnce s = .next t := h
  unfold stepOnce State.nextAction at this
  cases hr : s.tick.rst <;> cases hb : s.busy <;> cases ho : s.offered <;> simp [hr, hb, ho, perform] at this ⊢ <;>
    first | exact this | exact this.symm

/-- One step of a run. -/
theorem run_succ {s t : State} (h : step s = .next t) (n : Nat) :
    Sys2Proof.core.run (n + 1) s = Sys2Proof.core.run n t := by
  have gen : ∀ (M : Host.Core) {a b : M.State}, M.step a = .next b → M.run (n + 1) a = M.run n b := by
    intro M a b hab
    rw [Host.Core.run, hab]
  exact gen Sys2Proof.core h

/-! ### What no command and no evaluation touches -/

/-- No command touches the parameters, the clock, or the environment's lists. -/
theorem exec_environment {i : Instr} {s t : State} (h : exec i s = .next t) :
    t.cfg = s.cfg ∧ t.time = s.time ∧ t.offered = s.offered ∧ t.schedule = s.schedule := by
  cases i with
  | construct cap => obtain ⟨-, rfl⟩ | ⟨-, rfl⟩ := execConstruct_cases h <;> exact ⟨rfl, rfl, rfl, rfl⟩
  | reg2 spr a b =>
    obtain ⟨-, rfl⟩ | ⟨-, -, rfl⟩ | ⟨-, -, -, rfl⟩ := registerMotor_cases h <;> exact ⟨rfl, rfl, rfl, rfl⟩
  | reg4 spr a b c d =>
    obtain ⟨-, rfl⟩ | ⟨-, -, rfl⟩ | ⟨-, -, -, rfl⟩ := registerMotor_cases h <;> exact ⟨rfl, rfl, rfl, rfl⟩
  | setSpeed motor rpm =>
    obtain ⟨-, rfl⟩ | ⟨-, -, rfl⟩ | ⟨-, -, m, -, rfl⟩ := execSetSpeed_cases h <;> exact ⟨rfl, rfl, rfl, rfl⟩
  | moveBy ts =>
    obtain ⟨-, rfl⟩ | ⟨-, -, ⟨-, rfl⟩ | ⟨-, rfl⟩⟩ := execMoveBy_cases h <;> exact ⟨rfl, rfl, rfl, rfl⟩
  | version => cases h; exact ⟨rfl, rfl, rfl, rfl⟩

/-- An evaluation touches neither those nor `count` and `capacity`. -/
theorem evaluate_environment {s t : State} (h : evaluate s = .next t) :
    t.cfg = s.cfg ∧ t.time = s.time ∧ t.offered = s.offered ∧ t.schedule = s.schedule ∧ t.count = s.count ∧
      t.capacity = s.capacity := by
  obtain ⟨m, -, -, ⟨-, rfl⟩ | ⟨-, rfl⟩⟩ := evaluate_cases h <;> exact ⟨rfl, rfl, rfl, rfl, rfl, rfl⟩

/-- A registered slot after an evaluation: the evaluated one, or one that was registered before. -/
theorem mem_registered_afterSlot {s : State} {m x : Slot} (h : x ∈ (s.afterSlot m).registered) :
    x = m.evaluated s.nowMs ∨ x ∈ s.registered := by
  have e : (s.afterSlot m).registered = (s.writeSlot s.scan.toNat (m.evaluated s.nowMs)).registered := rfl
  rw [e] at h
  rcases State.mem_registered_writeSlot h with ⟨h, -⟩ | h
  · exact .inl h
  · exact .inr h

@[simp] theorem Slot.evaluated_spr (m : Slot) (now : Word) : (m.evaluated now).spr = m.spr := by
  unfold Slot.evaluated; split <;> rfl
@[simp] theorem Slot.evaluated_interval (m : Slot) (now : Word) : (m.evaluated now).interval = m.interval := by
  unfold Slot.evaluated; split <;> rfl
@[simp] theorem Slot.evaluated_direction (m : Slot) (now : Word) : (m.evaluated now).direction = m.direction := by
  unfold Slot.evaluated; split <;> rfl
@[simp] theorem Slot.evaluated_wiring (m : Slot) (now : Word) : (m.evaluated now).wiring = m.wiring := by
  unfold Slot.evaluated; split <;> rfl
@[simp] theorem Slot.evaluated_pins (m : Slot) (now : Word) : (m.evaluated now).pins = m.pins := by
  unfold Slot.evaluated; split <;> rfl

/-! ### What the bank invariants depend on -/

/-- The bank invariants read only these fields. -/
theorem State.Inv.congr {s t : State} (h : s.Inv) (h1 : t.cfg = s.cfg) (h2 : t.slots = s.slots) (h3 : t.count = s.count)
    (h4 : t.capacity = s.capacity) (h5 : t.busy = s.busy) (h6 : t.scan = s.scan) (h7 : t.pins = s.pins) : t.Inv := by
  have hr : t.registered = s.registered := by simp [State.registered, h2, h3]
  have hd : t.allDone = s.allDone := by simp [State.allDone, hr]
  obtain ⟨a, b, c, d, e, f, g, i, j, k⟩ := h
  exact ⟨h1 ▸ a, by rw [h1, h2]; exact b, by rw [h3, h4]; exact c, by rw [h1, h4]; exact d, by rw [hr]; exact e,
    by rw [h1, h6]; exact f, by rw [h5, h6, h3]; exact g, by rw [h5, hd]; exact i, by rw [h5, hd]; exact j,
    by rw [h7]; exact k⟩

theorem State.Inv.respondedOnly {s : State} (h : s.Inv) (st : BitVec 4) (d : Word) : (s.respondedOnly st d).Inv :=
  h.congr rfl rfl rfl rfl rfl rfl rfl

theorem State.Inv.later {s : State} (h : s.Inv) (a : Nat) : (s.later a).Inv := h.congr rfl rfl rfl rfl rfl rfl rfl

theorem State.Inv.offering {s : State} (h : s.Inv) (cs : List Command) : (s.offering cs).Inv :=
  h.congr rfl rfl rfl rfl rfl rfl rfl

theorem State.Inv.afterTick {s : State} (h : s.Inv) : s.afterTick.Inv :=
  h.congr (by simp) (by simp) (by simp) (by simp) (by simp) (by simp) (by simp)

/-- A freshly registered slot with a positive step count is legal (R68, R18). -/
theorem Slot.registered_legal {spr : Word} {w : Wiring} {a b c d : Word} (h : 0 < spr.toInt) :
    (Slot.registered spr w a b c d).Legal := by
  have h1 := toInt_eq_toNat_of_pos h
  have h2 := BitVec.toInt_lt (x := spr)
  simp at h2
  simp [Slot.Legal, Slot.registered]
  omega

end Sys2Proof.Machine
end

