-- ==== Sys2Proof/Tests/Slice0.lean ====
section
/-! SUPPORT. The model's own tests. Expected values come from 95_test_vectors.md (V-DEC, V-CON, V-REG, V-SPD, V-MOV, V-GATE,
V-CNT, V-PAT, V-RST, P1) and from the encodings of R64. Then, for each obligation with hypotheses, a state and operands
that meet them. -/

namespace Sys2Proof.Tests

open Sys2Proof Sys2Proof.Machine

/-! ### Small states -/

/-- The next state of an outcome, where there is one. -/
def after : Result → Option State
  | .next t => some t
  | .fault _ => none
  | .refused _ => none

theorem next_of_after {r : Result} (h : (after r).isSome = true) : ∃ t, r = .next t := by
  cases r with
  | next t => exact ⟨t, rfl⟩
  | fault f => simp [after] at h
  | refused f => simp [after] at h

/-- A fact about the next state, from an evaluation. -/
theorem next_of_all {r : Result} (p : State → Bool) (h : (after r).any p = true) : ∃ t, r = .next t ∧ p t = true := by
  cases r with
  | next t => exact ⟨t, rfl, by simpa [after] using h⟩
  | fault f => simp [after] at h
  | refused f => simp [after] at h

/-- After reset, with `MAX_SLOTS = 4` and `VERSION = 7`, at time 1000. -/
def start : State := State.resetFor ⟨4, 7⟩ 1000

/-- After CONSTRUCT 2. -/
def empty : State := { start with capacity := 2 }

def motorTwo : Slot := Slot.registered 200 .twoWire 8 9 0 0

def motorFour : Slot := Slot.registered 200 .fourWire 2 3 4 5

def output : PinState := ⟨.output, .unknown⟩

/-- A bank of two slots of the file's four, both registered. -/
def bankOf (a b : Slot) : State :=
  { empty with
    count := 2, slots := [a, b, Slot.atReset, Slot.atReset],
    pins := [(2, output), (3, output), (4, output), (5, output), (8, output), (9, output)] }

/-- The bank of P1 before its MOVE_BY. -/
def bank : State := bankOf { motorTwo with interval := 5 } { motorFour with interval := 5 }

/-- The bank of P1 after its MOVE_BY. -/
def moving : State :=
  { bankOf { motorTwo with interval := 5, remaining := 4 }
      { motorFour with interval := 5, direction := .backward, remaining := 2 } with busy := true }

/-- One step left, and its gate open. -/
def ending : State := { bankOf { motorTwo with remaining := 1 } motorFour with busy := true }

/-- One step left, and its gate closed. -/
def waiting : State := { bankOf { motorTwo with remaining := 1, interval := 5, lastStep := 998 } motorFour with busy := true }

/-- An action with `rst` low and the clock standing still, and one with `rst` high. -/
def still : Tick := ⟨false, 0⟩
def resetting : Tick := ⟨true, 0⟩

theorem bank_inv : bank.Inv := by constructor <;> decide
theorem moving_inv : moving.Inv := by constructor <;> decide
theorem ending_inv : ending.Inv := by constructor <;> decide
theorem waiting_inv : waiting.Inv := by constructor <;> decide

/-! ### Well-formedness: the smoke test -/

theorem wellFormed_moveBy (targets : List Word) : (Instr.moveBy targets).wellFormed = decide (targets.length ≤ 255) := rfl

/-- R54: MOVE_BY with 255 targets has an encoding, with 256 it has none. -/
theorem test_wellFormed_moveBy :
    (Instr.moveBy (List.replicate 255 1)).wellFormed = true ∧ (Instr.moveBy (List.replicate 256 1)).wellFormed = false := by
  rw [wellFormed_moveBy, wellFormed_moveBy, List.length_replicate, List.length_replicate]
  decide

/-- R50: a record has exactly `MAX_ARGS` argument words, 5 for `MAX_SLOTS = 4`. -/
theorem test_wellFormed_record :
    (Command.mk 6 [0, 0, 0, 0]).wellFormed ⟨4, 7⟩ = false ∧ (Command.mk 6 [0, 0, 0, 0, 0]).wellFormed ⟨4, 7⟩ = true ∧
      (Command.mk 6 [0, 0, 0, 0, 0, 0]).wellFormed ⟨4, 7⟩ = false := by decide

/-! ### Decoding: words written out from R64 and V-DEC -/

theorem test_decode_construct :
    decode ⟨0b00000000000000000000000000000001, [2]⟩ = .instr (.construct 2) := by decide

theorem test_decode_reg2 :
    decode ⟨0b00000000000000000000000000000010, [200, 8, 9]⟩ = .instr (.reg2 200 8 9) := by decide

theorem test_decode_reg4 :
    decode ⟨0b00000000000000000000000000000011, [200, 2, 3, 4, 5]⟩ = .instr (.reg4 200 2 3 4 5) := by decide

theorem test_decode_setSpeed :
    decode ⟨0b00000000000000000000000000000100, [1, 60]⟩ = .instr (.setSpeed 1 60) := by decide

theorem test_decode_moveBy :
    decode ⟨0b00000000000000000000001000000101, [4, 0xFFFFFFFE]⟩ = .instr (.moveBy [4, -2]) := by decide

theorem test_decode_version :
    decode ⟨0b00000000000000000000000000000110, []⟩ = .instr .version := by decide

/-- V-DEC: the illegal headers, each with its cause of R60. -/
theorem test_decode_illegal :
    decode ⟨0x00000000, []⟩ = .illegal .opcode ∧ decode ⟨0x00000007, []⟩ = .illegal .opcode ∧
    decode ⟨0x000000FF, []⟩ = .illegal .opcode ∧ decode ⟨0x00000101, []⟩ = .illegal .operandCount ∧
    decode ⟨0x00000106, []⟩ = .illegal .operandCount ∧ decode ⟨0x00010001, []⟩ = .illegal .reservedField ∧
    decode ⟨0x80000005, []⟩ = .illegal .reservedField := by decide

/-- P1: its first, third and last lines assemble to the records that it lists. -/
theorem test_assemble :
    assembleLine "CONSTRUCT 2                ; H=0x00000001".toList = .command (.construct 2) ∧
    assembleLine "REG4      200, 2, 3, 4, 5  ; four pins".toList = .command (.reg4 200 2 3 4 5) ∧
    assembleLine "MOVE_BY   4, -2".toList = .command (.moveBy [0x00000004, 0xFFFFFFFE]) ∧
    (encode (.moveBy [4, -2])).hdr = 0x00000205 ∧
    assembleLine "CONSTRUCT 2147483648".toList = .malformed := by decide

/-- The written lines: the MOVE_BY line of P1, and a hexadecimal operand of R62. -/
theorem test_lineText :
    lineText "MOVE_BY" [.decimal 4, .decimal (-2)] = "MOVE_BY 4, -2".toList ∧
    lineText "REG2" [.decimal 200, .decimal 0, .hexadecimal 0xFB] = "REG2 200, 0, 0xfb".toList := by decide

/-! ### The commands -/

/-- V-CON: `MAX_SLOTS` succeeds and `MAX_SLOTS + 1` does not; -2^31 does not either. -/
theorem test_construct :
    (after (exec (.construct 4) start)).map (fun t => (t.capacity, t.count, t.trace)) = some (4, 0, [.respond 0 0]) ∧
    (after (exec (.construct 5) start)).map (fun t => (t.capacity, t.trace)) = some (0, [.respond 1 0]) ∧
    (after (exec (.construct 0x80000000) start)).map (fun t => t.trace) = some [.respond 1 0] := by decide

/-- V-CON: a CONSTRUCT of a bank with motors drops them. -/
theorem test_construct_again :
    (after (exec (.construct 3) bank)).map (fun t => (t.capacity, t.count, t.registered)) = some (3, 0, []) := by decide

/-- V-REG: `C(8), C(9), R(0, 0)`; equal pins are not checked. -/
theorem test_reg2 :
    (after (exec (.reg2 200 8 9) empty)).map (fun t => (t.count, t.trace)) =
      some (1, [.sinkConfigure 8, .sinkConfigure 9, .respond 0 0]) ∧
    (after (exec (.reg2 200 7 7) empty)).map (fun t => t.trace) =
      some [.sinkConfigure 7, .sinkConfigure 7, .respond 0 0] := by decide

/-- V-REG: CapacityExceeded after reset, InvalidStepCount for -5. -/
theorem test_reg2_fails :
    (after (exec (.reg2 200 8 9) start)).map (fun t => (t.count, t.trace)) = some (0, [.respond 2 0]) ∧
    (after (exec (.reg2 0xFFFFFFFB 8 9) empty)).map (fun t => (t.count, t.trace)) = some (0, [.respond 3 0]) := by decide

/-- V-REG: a four-wire motor in slot 0, with its four pins in the slot. -/
theorem test_reg4 :
    (after (exec (.reg4 200 2 3 4 5) empty)).map (fun t => (t.slots[0]?, t.trace)) =
      some (some motorFour,
        [.sinkConfigure 2, .sinkConfigure 3, .sinkConfigure 4, .sinkConfigure 5, .respond 0 0]) := by decide

/-- V-REG: CapacityExceeded before InvalidStepCount. -/
theorem test_reg4_fails :
    (after (exec (.reg4 0 2 3 4 5) bank)).map (fun t => (t.count, t.trace)) = some (2, [.respond 2 0]) := by decide

/-- V-SPD: 60000 div (200 * 300) is 1; 301 gives 0; 48 and 100 give 12; the largest product does not wrap. -/
theorem test_setSpeed :
    (after (exec (.setSpeed 1 300) bank)).map (fun t => (t.slots[1]?.map (·.interval), t.trace)) =
      some (some 1, [.respond 0 0]) ∧
    intervalOf 200 301 = 0 ∧ intervalOf 48 100 = 12 ∧ intervalOf 0x7FFFFFFF 0x7FFFFFFF = 0 ∧ intervalOf 1 1 = 60000 := by
  decide

/-- V-SPD: InvalidSpeed for -60, InvalidMotorIndex before it, and an unsigned motor index. -/
theorem test_setSpeed_fails :
    (after (exec (.setSpeed 0 0xFFFFFFC4) bank)).map (fun t => t.trace) = some [.respond 4 0] ∧
    (after (exec (.setSpeed 2 0) bank)).map (fun t => t.trace) = some [.respond 6 0] ∧
    (after (exec (.setSpeed 0xFFFFFFFF 60) bank)).map (fun t => t.trace) = some [.respond 6 0] := by decide

/-- V-MOV and P1: directions (Fwd, Bwd), remaining (4, 2), busy, no response yet. -/
theorem test_moveBy : after (exec (.moveBy [4, 0xFFFFFFFE]) bank) = some moving := by decide

/-- V-MOV: -2^31 gives 2^31 steps; all targets 0 respond at once; three targets for two motors fail. -/
theorem test_moveBy_corners :
    (after (exec (.moveBy [0x80000000, 0]) bank)).map (fun t => (t.busy, t.slots.map (·.remaining))) =
      some (true, [0x80000000, 0, 0, 0]) ∧
    (after (exec (.moveBy [0, 0]) bank)).map (fun t => (t.busy, t.trace)) = some (false, [.respond 0 0]) ∧
    (after (exec (.moveBy [1, 1, 1]) bank)).map (fun t => (t.busy, t.trace)) = some (false, [.respond 5 0]) := by decide

/-- V-VER: the parameter's word, with ignored argument words. -/
theorem test_version :
    (after (accept ⟨6, [0xDEADBEEF, 0xDEADBEEF]⟩ bank)).map (fun t => t.trace) = some [.respond 0 7] := by decide

/-! ### Evaluations, the pattern, reset, the step -/

/-- V-GATE: the clock wrapped, and the gate just open, just closed. -/
theorem test_gate :
    gateOpen 0x00000003 0xFFFFFFFE 5 = true ∧ gateOpen 0x00000002 0xFFFFFFFE 5 = false ∧ gateOpen 59999 0 60000 = false ∧
      gateOpen 60000 0 60000 = true ∧ gateOpen 1000 1000 0 = true ∧ gateOpen 9 10 5 = true := by decide

/-- V-CNT: both wraps, `spr = 6` and `spr = 2^31-1`. -/
theorem test_counter :
    nextIndex .forward 199 200 = 0 ∧ nextIndex .backward 0 200 = 199 ∧ nextIndex .backward 0 6 = 5 ∧
      nextIndex .backward 0 0x7FFFFFFF = 0x7FFFFFFE ∧ nextIndex .forward 0x7FFFFFFE 0x7FFFFFFF = 0 ∧
      nextIndex .backward 0 1 = 0 := by decide

/-- P1, its first evaluation: slot 0 steps to index 1 and drives phase 1. -/
theorem test_evaluate :
    (after (evaluate moving)).map (fun t => (t.slots[0]?, t.scan, t.trace)) =
      some (some { motorTwo with stepIndex := 1, interval := 5, lastStep := 1000, remaining := 3 }, 1,
        [.sinkWrite 8 .high, .sinkWrite 9 .high]) := by decide

/-- V-PAT: phase 3 of four wires; a shared pin ends High at phase 0. -/
theorem test_pattern :
    patternEvents 3 motorFour = [.sinkWrite 2 .high, .sinkWrite 3 .low, .sinkWrite 4 .low, .sinkWrite 5 .high] ∧
    ((emitStepPattern 0 { motorTwo with pinA := 7, pinB := 7 } bank).pin 7).level = .driven .high := by decide

/-- V-RST: a reset while a move runs abandons it. -/
theorem test_reset :
    (after (step { moving with schedule := [resetting] })).map (fun t => (t.capacity, t.count, t.busy)) = some (0, 0, false) ∧
    (after (step { moving with schedule := [resetting] })).map (fun t => (t.trace, t.pins)) = some ([], moving.pins) := by
  decide

/-- V-DEC, as the host places commands: a step from reset runs the command of a table word. -/
theorem test_step_of_word :
    (after (step (State.reset.withFetchWord 32 0x00000105))).map (fun t => t.trace) = some [.respond 5 0] ∧
    (after (step (State.reset.withFetchWord 32 0x00000007))).map (fun t => t.trace) = some [.respond 7 0] ∧
    decodeTableWord 32 0x00000105 = some (.moveBy [0]) ∧ decodeTableWord 32 0x00000007 = none := by decide

/-! ### Witnesses: encoding -/

theorem test_witness_DecodeEncodeRoundTrip :
    (Instr.moveBy (List.replicate 255 0xFFFFFFFF)).wellFormed = true ∧ (Instr.moveBy []).wellFormed = true ∧
      (Instr.reg4 0 1 2 3 0xFFFFFFFF).wellFormed = true := by
  rw [wellFormed_moveBy, List.length_replicate]
  decide

theorem test_witness_DecodedRecordReencodes :
    decode ⟨0x00000205, [4, 5, 6]⟩ = .instr (.moveBy [4, 5]) ∧ 1 < (encode (.moveBy [4, 5])).args.length := by decide

/-- First clause: two REG2 records that differ beyond the operands; second clause: MOVE_BY with `N = 1` and no motor. -/
theorem test_witness_IgnoredArgumentWordsHaveNoEffect :
    (decodeHeader 2 = .op .reg2 ∧
      ∀ k, k < operandWords .reg2 → (Command.mk 2 [9, 9, 9, 1]).arg k = (Command.mk 2 [9, 9, 9, 2]).arg k) ∧
    (decodeHeader 0x00000105 = .op (.moveBy 1) ∧ (1 : BitVec 8).toNat ≠ start.count.toNat) := by decide

/-- R60 (a), (b) at both ends of its ranges, (c). -/
theorem test_witness_IllegalHeadersFailWithIllegalCommand :
    IllegalHeader 0x00010001 ∧ IllegalHeader 0x00000000 ∧ IllegalHeader 0x00000007 ∧ IllegalHeader 0x000000FF ∧
      IllegalHeader 0x00000101 ∧ ¬ IllegalHeader 0x00000006 ∧ ¬ IllegalHeader 0x0000FF05 :=
  ⟨by decide, by decide, by decide, by decide, by decide, by decide, by decide⟩

theorem test_witness_OpcodeMapSelectsOneRow :
    decodeHeader 0x0000FF05 = .op (.moveBy 255) ∧ decodeHeader 0x00000006 = .op .version ∧
      decodeHeader 0x00000107 = .illegal .opcode ∧ opcodeMap ≠ [] := by decide

/-- First clause: a line. Range clauses: operands at both ends of their ranges and just outside; the target counts 255
and 256; wrong numbers of operands. -/
theorem test_witness_LinesAssembleToTheirCommands :
    assembleLine "MOVE_BY 3, 0 ; two".toList = .command (.moveBy [3, 0]) ∧
    ((AsmOperand.decimal (-2147483648)).SignedInRange ∧ (AsmOperand.decimal 2147483647).SignedInRange ∧
      ¬ (AsmOperand.decimal (-2147483649)).SignedInRange ∧ ¬ (AsmOperand.decimal 2147483648).SignedInRange) ∧
    ((AsmOperand.decimal 0).UnsignedInRange ∧ (AsmOperand.decimal 4294967295).UnsignedInRange ∧
      ¬ (AsmOperand.decimal (-1)).UnsignedInRange ∧ ¬ (AsmOperand.decimal 4294967296).UnsignedInRange) ∧
    ((AsmOperand.hexadecimal 0xFFFFFFFF).SignedInRange ∧ ¬ (AsmOperand.hexadecimal 0x100000000).SignedInRange ∧
      (AsmOperand.hexadecimal 0xFFFFFFFF).UnsignedInRange ∧ ¬ (AsmOperand.hexadecimal 0x100000000).UnsignedInRange) ∧
    (List.replicate 255 (AsmOperand.decimal 1)).length ≤ 255 ∧ ¬ (List.replicate 256 (AsmOperand.decimal 1)).length ≤ 255 ∧
    [AsmOperand.decimal 1].length ≠ 0 ∧ ([] : List AsmOperand).length ≠ 5 := by
  simp only [List.length_replicate]
  refine ⟨by decide, ?_⟩
  simp [AsmOperand.SignedInRange, AsmOperand.UnsignedInRange]

/-! ### Witnesses: the step -/

/-- A record that decodes to a command, and one with an illegal header. -/
theorem test_witness_StepRunsTheDecodedCommand :
    (∃ s : State, s.tick.rst = false ∧ s.busy = false ∧ s.offered = [⟨6, []⟩] ∧ decode ⟨6, []⟩ = .instr .version) ∧
      ∃ s : State, s.tick.rst = false ∧ s.busy = false ∧ s.offered = [⟨0x00010001, [2]⟩] ∧ IllegalHeader 0x00010001 :=
  ⟨⟨{ bank with offered := [⟨6, []⟩], schedule := [⟨false, 3⟩] }, by decide⟩,
    ⟨{ bank with offered := [⟨0x00010001, [2]⟩], schedule := [still] }, by decide, by decide, by decide, by decide⟩⟩

theorem test_witness_BusyBlockEvaluatesAndAcceptsNothing :
    ∃ s : State, s.tick.rst = false ∧ s.busy = true ∧ s.offered ≠ [] ∧ ∃ t, step s = .next t :=
  ⟨{ moving with offered := [⟨6, []⟩], schedule := [still] }, by decide, by decide, by decide, next_of_after (by decide)⟩

theorem test_witness_IdleBlockWaits : ∃ s : State, s.tick.rst = false ∧ s.busy = false ∧ s.offered = [] :=
  ⟨{ bank with schedule := [still] }, by decide⟩

/-- Reset of a running move, and the release of `rst` with a command offered. -/
theorem test_witness_ResetAbandonsEverything :
    ∃ s : State, s.tick.rst = true ∧ s.offered = [⟨6, []⟩] ∧ ∃ t, step s = .next t ∧ (!t.tick.rst) = true :=
  ⟨{ moving with offered := [⟨6, []⟩], schedule := [resetting, still] }, by decide, by decide,
    next_of_all (fun t => !t.tick.rst) (by decide)⟩

theorem test_witness_ResetStateHoldsTheStatedValues : Config.Legal ⟨1, 0⟩ ∧ Config.Legal ⟨255, 0⟩ := by decide

/-! ### Witnesses: the commands -/

/-- Both clauses at the ends of their ranges, for `MAX_SLOTS = 4`. -/
theorem test_witness_ConstructMakesAnEmptyBank :
    (0 < (1 : Word).toInt ∧ (1 : Word).toInt ≤ (start.cfg.maxSlots : Int)) ∧
    (0 < (4 : Word).toInt ∧ (4 : Word).toInt ≤ (start.cfg.maxSlots : Int)) ∧
    (0 : Word).toInt ≤ 0 ∧ (0x80000000 : Word).toInt ≤ 0 ∧ (start.cfg.maxSlots : Int) < (5 : Word).toInt := by decide

/-- A free slot with the least and the greatest step count; a full bank; a free slot with step counts 0 and -1. -/
theorem test_witness_Reg2RegistersATwoWireMotor :
    (empty.count.toNat < empty.capacity.toNat ∧ empty.count.toNat < empty.slots.length ∧ PinsWf empty.pins ∧
      0 < (1 : Word).toInt ∧ 0 < (0x7FFFFFFF : Word).toInt) ∧
    bank.capacity.toNat ≤ bank.count.toNat ∧ (0 : Word).toInt ≤ 0 ∧ (0xFFFFFFFF : Word).toInt ≤ 0 := by decide

/-- As for REG2, in a bank with one motor and room for one more. -/
theorem test_witness_Reg4RegistersAFourWireMotor :
    ∃ s : State, s.count = 1 ∧ s.count.toNat < s.capacity.toNat ∧ s.count.toNat < s.slots.length ∧ PinsWf s.pins ∧
      0 < (1 : Word).toInt ∧ (0x80000000 : Word).toInt ≤ 0 ∧ bank.capacity.toNat ≤ bank.count.toNat :=
  ⟨{ bank with count := 1 }, by decide⟩

/-- The last registered motor with the least rpm; the first index that is none; rpm 0. -/
theorem test_witness_SetSpeedWritesTheInterval :
    ((1 : Word).toNat < bank.count.toNat ∧ 0 < (1 : Word).toInt ∧
      bank.slots[(1 : Word).toNat]? = some { motorFour with interval := 5 } ∧ 1 ≤ motorFour.spr.toNat) ∧
    bank.count.toNat ≤ (2 : Word).toNat ∧ (0 : Word).toInt ≤ 0 := by decide

theorem test_witness_IntervalIsTheExactQuotient :
    (1 ≤ (1 : Word).toNat ∧ (1 : Word).toNat ≤ 2 ^ 31 - 1) ∧
      (1 ≤ (0x7FFFFFFF : Word).toNat ∧ (0x7FFFFFFF : Word).toNat ≤ 2 ^ 31 - 1) := by decide

theorem test_witness_VersionReportsTheParameter : (Command.mk 0x00000006 [5]).hdr = 0x00000006 := by decide

/-- Targets that start a move, targets that do not, no motor at all; another number of targets. -/
theorem test_witness_MoveBySetsUpTheMove :
    ([4, 0x80000000] : List Word).length = bank.count.toNat ∧ bank.count.toNat ≤ bank.slots.length ∧
      (¬ ∀ t ∈ ([4, 0x80000000] : List Word), t.toInt = 0) ∧ (∀ t ∈ ([0, 0] : List Word), t.toInt = 0) ∧
      ([] : List Word).length = start.count.toNat ∧ ([1, 1, 1] : List Word).length ≠ bank.count.toNat ∧
      bank.slots[1]? = some { motorFour with interval := 5 } ∧ ([4, 0x80000000] : List Word)[1]? = some 0x80000000 :=
  ⟨by decide, by decide, by simp, by simp, by decide, by decide, by decide, by decide⟩

/-! ### Witnesses: errors and responses -/

/-- One command for each error, one without error whose response is in its new events, an evaluation with a response, and
reset. -/
theorem test_witness_ErrorsFollowTheCatalogue :
    errorOf start (.instr (.construct 0)) = some .capacityError ∧
    errorOf bank (.instr (.reg2 0 1 2)) = some .capacityExceeded ∧
    errorOf empty (.instr (.reg4 0 1 2 3 4)) = some .invalidStepCount ∧
    errorOf bank (.instr (.setSpeed 1 0)) = some .invalidSpeed ∧
    errorOf bank (.instr (.moveBy [])) = some .argumentCountMismatch ∧
    errorOf bank (.instr (.setSpeed 2 0)) = some .invalidMotorIndex ∧
    errorOf bank (.illegal .opcode) = some .illegalCommand ∧
    (errorOf bank (decode ⟨6, []⟩) = none ∧
      ((after (accept ⟨6, []⟩ bank)).any fun t => decide (.respond 0 7 ∈ newEvents bank t)) = true) ∧
    ((after (evaluate ending)).any fun t => decide (.respond 0 0 ∈ newEvents ending t)) = true ∧
    ({ moving with schedule := [resetting] } : State).tick.rst = true :=
  ⟨by decide, by decide, by decide, by decide, by decide, by decide, by decide, ⟨by decide, by decide⟩, by decide, by decide⟩

theorem test_witness_ErrorsAreAllOrNothing :
    ∃ t, accept ⟨1, [0]⟩ bank = .next t ∧ decide (.respond 1 0 ∈ newEvents bank t) = true :=
  next_of_all _ (by decide)

/-- Idle: a command that responds and one that starts a move. Busy: an evaluation that completes and one that does not. -/
theorem test_witness_OneResponsePerCommand :
    bank.busy = false ∧ (∃ t, accept ⟨6, []⟩ bank = .next t) ∧
      (∃ t, accept ⟨0x205, [1, 1]⟩ bank = .next t ∧ t.busy = true) ∧
      ending.busy = true ∧ (∃ t, evaluate ending = .next t ∧ (!t.busy) = true) ∧
      moving.busy = true ∧ ∃ t, evaluate moving = .next t ∧ t.busy = true :=
  ⟨by decide, next_of_after (by decide), next_of_all (fun t => t.busy) (by decide), by decide,
    next_of_all (fun t => !t.busy) (by decide), by decide, next_of_all (fun t => t.busy) (by decide)⟩

theorem test_witness_ResponsesStayInTheStatusTable :
    ∃ s : State, s.TraceLegal ∧ s.trace ≠ [] ∧ ∃ t, step s = .next t :=
  ⟨{ moving with trace := [.respond 7 0], schedule := [still] },
    fun e he => by rcases List.mem_singleton.1 he with rfl; decide, by decide, next_of_after (by decide)⟩

/-! ### Witnesses: motion -/

/-- Just open and just closed, across a wrap of the clock. -/
theorem test_witness_GateComparesElapsedTimeModulo :
    (0xFFFFFFFE ≤ 0x100000003 ∧ 0x100000003 - 0xFFFFFFFE < 2 ^ 32) ∧
      gateOpen (BitVec.ofNat 32 0x100000003) (BitVec.ofNat 32 0xFFFFFFFE) 5 = true ∧
      gateOpen (BitVec.ofNat 32 0x100000002) (BitVec.ofNat 32 0xFFFFFFFE) 5 = false := by decide

/-- V-GATE's last row: 2^32 + 100 ms after the last step the gate of 300 ms is closed. -/
theorem test_witness_GateHoldsBackByAtMostTheInterval :
    0 ≤ 2 ^ 32 + 100 ∧ gateOpen (BitVec.ofNat 32 (2 ^ 32 + 100)) (BitVec.ofNat 32 0) 300 = false := by decide

/-- An open gate and a closed one, Forward and Backward, at `spr` 200 and 1. -/
theorem test_witness_FirstStepOfARegisteredMotor :
    (∃ s : State, s.scan.toNat < s.count.toNat ∧ s.slots[s.scan.toNat]? = some { motorTwo with interval := 1000, remaining := 1 } ∧
      (1000 : Word).toNat ≤ s.time % 2 ^ 32) ∧
    (∃ s : State, s.scan.toNat < s.count.toNat ∧
      s.slots[s.scan.toNat]? = some { motorTwo with interval := 1001, direction := .backward, remaining := 1 } ∧
      ¬ (1001 : Word).toNat ≤ s.time % 2 ^ 32) ∧
    ∃ s : State, s.scan.toNat < s.count.toNat ∧ s.slots[s.scan.toNat]? = some { motorTwo with spr := 1, remaining := 1 } :=
  ⟨⟨bankOf { motorTwo with interval := 1000, remaining := 1 } motorFour, by decide⟩,
    ⟨bankOf { motorTwo with interval := 1001, direction := .backward, remaining := 1 } motorFour, by decide⟩,
    ⟨bankOf { motorTwo with spr := 1, remaining := 1 } motorFour, by decide⟩⟩

/-- A slot that steps, one that waits, one that completes the move; an index at each end of its range. -/
theorem test_witness_EvaluateStepsOneSlot :
    ∀ s ∈ [moving, waiting, ending, bankOf { motorTwo with stepIndex := 199, remaining := 1 } motorFour],
      s.scan.toNat < s.count.toNat ∧
        (s.slots[s.scan.toNat]?.any fun m => decide (m.stepIndex.toNat < m.spr.toNat)) = true := by decide

theorem test_witness_StepIndexWrapsModuloSpr :
    (0 : Word).toNat < (1 : Word).toNat ∧ (199 : Word).toNat < (200 : Word).toNat ∧
      (0x7FFFFFFE : Word).toNat < (0x7FFFFFFF : Word).toNat ∧
      (6 : Word).toNat % 4 ≠ 0 ∧ (5 : Word).toNat + 1 = (6 : Word).toNat ∧ (0x7FFFFFFF : Word).toNat % 4 ≠ 0 := by decide

theorem test_witness_IntervalZeroFreeRuns :
    (ending.scan.toNat < ending.count.toNat ∧ ending.slots[ending.scan.toNat]? = some { motorTwo with remaining := 1 } ∧
      motorTwo.interval = 0 ∧ 0 < (1 : Word).toNat) ∧ 60000 < (200 : Word).toNat * (301 : Word).toNat := by decide

/-- Two motors that agree on nothing but the three fields and the sample, with the gate just open and just closed; the same
slot beside another motor; and a slot that has finished while the other runs. -/
theorem test_witness_MotorsDoNotDelayEachOther :
    (∀ last ∈ [(995 : Word), 996], ∃ s s' : State,
      (s.slots[s.scan.toNat]? = some { motorTwo with interval := 5, lastStep := last, remaining := 2 }) ∧
      (s'.slots[s'.scan.toNat]? =
        some { motorFour with interval := 5, lastStep := last, remaining := 2, spr := 6, direction := .backward }) ∧
      s'.nowMs = s.nowMs ∧ (∃ t, evaluate s = .next t) ∧ ∃ t', evaluate s' = .next t') ∧
    (∃ s s' : State, s'.slots ≠ s.slots ∧ s'.scan = s.scan ∧ s'.nowMs = s.nowMs ∧
      s'.slots[s.scan.toNat]? = s.slots[s.scan.toNat]? ∧ (∃ t, evaluate s = .next t) ∧ ∃ t', evaluate s' = .next t') ∧
    ∃ s : State, (∃ t, evaluate s = .next t) ∧ s.slots[s.scan.toNat]? = some motorTwo ∧ motorTwo.remaining.toNat = 0 :=
  ⟨fun last hl => by
      rcases List.mem_cons.1 hl with rfl | hl
      · exact ⟨bankOf { motorTwo with interval := 5, lastStep := 995, remaining := 2 } motorFour,
          { bankOf motorTwo { motorFour with interval := 5, lastStep := 995, remaining := 2, spr := 6, direction := .backward } with
            scan := 1 }, by decide, by decide, by decide, next_of_after (by decide), next_of_after (by decide)⟩
      · rcases List.mem_singleton.1 hl with rfl
        exact ⟨bankOf { motorTwo with interval := 5, lastStep := 996, remaining := 2 } motorFour,
          { bankOf motorTwo { motorFour with interval := 5, lastStep := 996, remaining := 2, spr := 6, direction := .backward } with
            scan := 1 }, by decide, by decide, by decide, next_of_after (by decide), next_of_after (by decide)⟩,
    ⟨ending, bankOf { motorTwo with remaining := 1 } { motorFour with interval := 9, remaining := 3 }, by decide, by decide,
      by decide, by decide, next_of_after (by decide), next_of_after (by decide)⟩,
    ⟨bankOf motorTwo { motorFour with remaining := 1 }, next_of_after (by decide), by decide, by decide⟩⟩

/-- A slot whose interval has just passed since its last step at time 995. -/
theorem test_witness_StepsKeepTheirInterval :
    ∃ s : State, s.slots[s.scan.toNat]? = some { motorTwo with interval := 5, lastStep := BitVec.ofNat 32 995, remaining := 2 } ∧
      995 ≤ s.time ∧ s.time - 995 < 2 ^ 32 ∧
      ∃ t, evaluate s = .next t ∧
        (t.slots[s.scan.toNat]?.any fun m' => decide (m'.remaining ≠ 2)) = true :=
  ⟨{ bankOf { motorTwo with interval := 5, lastStep := BitVec.ofNat 32 995, remaining := 2 } motorFour with busy := true },
    by decide, by decide, by decide,
    next_of_all (fun t => t.slots[(0 : Nat)]?.any fun m' => decide (m'.remaining ≠ 2)) (by decide)⟩

/-- A move that completes in one evaluation, beside a target 0; and a move that completes at once. -/
theorem test_witness_CompletedMoveDisplacesByTheTarget :
    bank.Inv ∧ bank.busy = false ∧ ([0xFFFFFFFF, 0] : List Word).length = bank.count.toNat ∧
      (∃ t, exec (.moveBy [0xFFFFFFFF, 0]) bank = .next t ∧
        ∃ u, evaluations [0] t = .next u ∧ (!u.busy) = true) ∧
      ∃ t, exec (.moveBy [0, 0]) bank = .next t ∧ (!t.busy) = true := by
  refine ⟨bank_inv, by decide, by decide, ?_, next_of_all (fun t => !t.busy) (by decide)⟩
  obtain ⟨t, ht, hp⟩ := next_of_all (r := exec (.moveBy [0xFFFFFFFF, 0]) bank)
    (fun t => (after (evaluations [0] t)).any fun u => !u.busy) (by decide)
  exact ⟨t, ht, next_of_all _ hp⟩

/-- A completion and a reset. -/
theorem test_witness_MoveEndsOnlyByCompletionOrReset :
    (∃ s : State, s.busy = true ∧ s.tick.rst = false ∧ ∃ t, step s = .next t ∧ (!t.busy) = true) ∧
      ∃ s : State, s.busy = true ∧ s.tick.rst = true ∧ ∃ t, step s = .next t ∧ (!t.busy) = true :=
  ⟨⟨{ ending with schedule := [still] }, by decide, by decide, next_of_all (fun t => !t.busy) (by decide)⟩,
    ⟨{ ending with schedule := [resetting] }, by decide, by decide, next_of_all (fun t => !t.busy) (by decide)⟩⟩

theorem test_witness_StalledClockHangsTheMove :
    waiting.Inv ∧ waiting.busy = true ∧
      ∀ m ∈ waiting.registered, m.remaining ≠ 0 → gateOpen waiting.nowMs m.lastStep m.interval = false :=
  ⟨waiting_inv, by decide, by decide⟩

/-- A clock that advances by 1 ms before every evaluation. -/
theorem test_witness_EveryMoveCompletesUnderFairness :
    waiting.Inv ∧ waiting.busy = true ∧
      (∀ bound, ∃ n, bound ≤ ((List.range n).map fun _ => 1).sum) ∧
      ∀ _k : Nat, ((List.range waiting.count.toNat).map fun _ => 1).sum < 2 ^ 32 - 60000 :=
  ⟨waiting_inv, by decide, fun bound => ⟨bound, by simp⟩, fun _ => by decide⟩

/-! ### Witnesses: the pattern driver and the sink -/

theorem test_witness_PatternTablesDriveThePins : motorTwo.wiring = .twoWire ∧ motorFour.wiring = .fourWire := by decide

theorem test_witness_PatternIsPure :
    ∃ m' : Slot, m' ≠ motorTwo ∧ m'.wiring = motorTwo.wiring ∧ m'.pins = motorTwo.pins :=
  ⟨{ motorTwo with pinC := 77, stepIndex := 3 }, by decide⟩

/-- Indices that wrap with `spr` a multiple of 4, and indices that do not wrap with `spr = 6`. -/
theorem test_witness_PatternTableStructure :
    ((3 : Word).toNat < (4 : Word).toNat ∧ (4 : Word).toNat % 4 = 0) ∧
    ((4 : Word).toNat < (6 : Word).toNat ∧ (4 : Word).toNat + 1 ≠ (6 : Word).toNat) ∧
    ((0 : Word).toNat < (4 : Word).toNat) ∧ ((5 : Word).toNat < (6 : Word).toNat ∧ (5 : Word).toNat ≠ 0) := by decide

theorem test_witness_EventsDriveTheSink : PinsWf bank.pins ∧ bank.pins ≠ [] := by decide

/-- A shared pin, whose last write is High, and a pin that is not written. -/
theorem test_witness_LastWrittenLevelWins :
    PinsWf bank.pins ∧
      patternEvents 0 { motorTwo with pinA := 7, pinB := 7 } = [.sinkWrite 7 .low] ++ [.sinkWrite 7 .high] ++ [] ∧
      ∀ l, .sinkWrite 8 l ∉ patternEvents 0 { motorTwo with pinA := 7, pinB := 7 } :=
  ⟨by decide, by decide, fun l => by cases l <;> decide⟩

theorem test_witness_CommandsDriveNoLevel :
    PinsWf empty.pins ∧ ∃ t, accept ⟨2, [200, 8, 9]⟩ empty = .next t ∧ decide (t.pins ≠ empty.pins) = true :=
  ⟨by decide, next_of_all (fun t => decide (t.pins ≠ empty.pins)) (by decide)⟩

/-! ### Witnesses: frames -/

theorem test_witness_FrameOfSinklessCommands :
    (∃ t, exec (.construct 3) bank = .next t) ∧ (∃ t, exec (.setSpeed 1 1) bank = .next t) ∧
      (∃ t, exec (.moveBy [1, 0]) bank = .next t) ∧ ∃ t, exec .version bank = .next t :=
  ⟨next_of_after (by decide), next_of_after (by decide), next_of_after (by decide), next_of_after (by decide)⟩

theorem test_witness_FrameOfRegistrations :
    PinsWf empty.pins ∧ (∃ t, exec (.reg2 200 8 8) empty = .next t) ∧ ∃ t, exec (.reg4 200 2 3 4 2) empty = .next t :=
  ⟨by decide, next_of_after (by decide), next_of_after (by decide)⟩

theorem test_witness_FrameOfEvaluate :
    PinsWf moving.pins ∧ (∃ t, evaluate moving = .next t) ∧ moving.slots[moving.scan.toNat]?.isSome = true :=
  ⟨by decide, next_of_after (by decide), by decide⟩

/-! ### Witnesses: invariants and whole-machine rules -/

theorem test_witness_BankInvariantsHoldAtReset : Config.Legal ⟨1, 0⟩ ∧ Config.Legal ⟨255, 7⟩ := by decide

theorem moving_still_inv : ({ moving with schedule := [still] } : State).Inv := by constructor <;> decide

theorem test_witness_EveryStepKeepsTheBankInvariants : ∃ s : State, s.Inv ∧ s.busy = true ∧ ∃ t, step s = .next t :=
  ⟨{ moving with schedule := [still] }, moving_still_inv, by decide, next_of_after (by decide)⟩

theorem moving_bankInvariants : moving.BankInvariants := by constructor <;> decide

theorem bank_bankInvariants : bank.BankInvariants := by constructor <;> decide

/-- Each kind of action, and a step. -/
theorem test_witness_EveryActionPreservesTheInvariantsOfR18 :
    bank.BankInvariants ∧ bank.busy = false ∧ (∃ t, perform (.accept ⟨6, []⟩) bank = .next t) ∧
      moving.BankInvariants ∧ moving.busy = true ∧ (∃ t, perform .evaluate moving = .next t) ∧
      (∃ t, perform .reset moving = .next t) ∧ (∃ t, step { moving with schedule := [still] } = .next t) ∧ moving.Inv :=
  ⟨bank_bankInvariants, by decide, next_of_after (by decide), moving_bankInvariants, by decide, next_of_after (by decide),
    next_of_after (by decide), next_of_after (by decide), moving_inv⟩

theorem test_witness_LegalStatesNeverStop : bank.Inv ∧ moving.Inv := ⟨bank_inv, moving_inv⟩

theorem test_witness_SinkFollowsTheTrace :
    ∃ s t : State, step s = .next t ∧ decide (t.pins ≠ s.pins) = true := by
  obtain ⟨t, h⟩ := next_of_all (r := step { moving with schedule := [still] }) (fun t => decide (t.pins ≠ moving.pins))
    (by decide)
  exact ⟨_, t, h⟩

theorem test_witness_PortLanesCarryEveryPinEvent :
    ∃ s t : State, step s = .next t ∧ decide ((outputs s t).pinEvt = [.write 8 .high, .write 9 .high, .idle, .idle]) = true := by
  obtain ⟨t, h⟩ := next_of_all (r := step { moving with schedule := [still] })
    (fun t => decide ((outputs { moving with schedule := [still] } t).pinEvt = [.write 8 .high, .write 9 .high, .idle, .idle]))
    (by decide)
  exact ⟨_, t, h⟩

theorem moving_pinsConfigured : moving.PinsConfigured := by
  have h : (moving.registered.all fun m => m.pins.all fun p => decide ((moving.pin p).mode = .output)) = true := by decide
  intro m hm p hp
  exact of_decide_eq_true (List.all_eq_true.1 (List.all_eq_true.1 h m hm) p hp)

theorem test_witness_PinsAreConfiguredBeforeTheyAreWritten :
    PinsWf moving.pins ∧ moving.PinsConfigured ∧
      ∃ s t : State, s.PinsConfigured ∧ step s = .next t ∧ decide (.sinkWrite 8 .high ∈ newEvents s t) = true := by
  obtain ⟨t, h⟩ := next_of_all (r := step { moving with schedule := [still] })
    (fun t => decide (.sinkWrite 8 .high ∈ newEvents { moving with schedule := [still] } t)) (by decide)
  exact ⟨by decide, moving_pinsConfigured, { moving with schedule := [still] }, t, moving_pinsConfigured, h⟩

theorem test_witness_ParametersStayAndTimeIsMonotone :
    ∃ s t : State, step s = .next t ∧ decide (t.time = 1003) = true := by
  obtain ⟨t, h⟩ := next_of_all (r := step { moving with schedule := [⟨false, 3⟩] }) (fun t => decide (t.time = 1003)) (by decide)
  exact ⟨_, t, h⟩

/-- An evaluation, and a SET_SPEED that changes the interval of motor 1. -/
theorem test_witness_RegisteredFieldsAreFixed :
    (∃ s t : State, s.tick.rst = false ∧ step s = .next t ∧ 1 < s.count.toNat ∧ s.slots[1]?.isSome = true) ∧
      ∃ t, step { bank with offered := [⟨4, [1, 300]⟩], schedule := [still] } = .next t ∧
        decide (t.slots[1]? = some { motorFour with interval := 1 }) = true := by
  obtain ⟨t, h⟩ := next_of_after (r := step { moving with schedule := [still] }) (by decide)
  exact ⟨⟨_, t, by decide, h, by decide, by decide⟩, next_of_all _ (by decide)⟩

end Sys2Proof.Tests
end

/-! ## What accepting a record does to the state

One inversion for all commands, from which every statement about accepting a record is derived (R53, R60, R67 to R71,
R83, R107). -/

namespace Sys2Proof.Machine

/-- A slot after SET_SPEED at `rpm` (R71, R72). -/
def Slot.atSpeed (m : Slot) (rpm : Word) : Slot := { m with interval := intervalOf m.spr rpm }

/-- The state after a registration of `m`, which drew `k` free values (R68). -/
def State.withMotor (s : State) (m : Slot) (k : Nat) : State :=
  { s with
    slots := s.slots.set s.count.toNat m
    pins := m.pins.foldl sinkConfigured s.pins
    trace := s.trace ++ m.pins.map .sinkConfigure ++ [.respond 0 s.count]
    count := s.count + 1
    draws := s.draws + k }

/-- The state after the setup loop of a move (R83). -/
def State.withMoveTargets (s : State) (ts : List Word) : State := { s with slots := withTargets ts s.slots }

/-- Everything that accepting the record `c` can do to a state. -/
inductive AcceptEffect (c : Command) (s : State) : State → Prop where
  /-- An error or VERSION: a response and nothing else (R107, R111). -/
  | answered (status : BitVec 4) (data : Word) : AcceptEffect c s (s.respondedOnly status data)
  /-- CONSTRUCT (R67). -/
  | constructed (cap : Word) (hpos : 0 < cap.toInt) (hmax : cap.toInt ≤ (s.cfg.maxSlots : Int)) :
      AcceptEffect c s ({ s with capacity := cap, count := 0 }.respondedOnly 0 0)
  /-- REG2 or REG4 (R69, R70). -/
  | registered (spr : Word) (w : Wiring) (pinA pinB pinC pinD : Word) (k : Nat)
      (hfree : s.count.toNat < s.capacity.toNat) (hspr : 0 < spr.toInt) (hfile : s.count.toNat < s.slots.length) :
      AcceptEffect c s (s.withMotor (Slot.registered spr w pinA pinB pinC pinD) k)
  /-- SET_SPEED (R71). -/
  | spedUp (motor rpm : Word) (m : Slot) (hd : decode c = .instr (.setSpeed motor rpm))
      (hmotor : motor.toNat < s.count.toNat) (hrpm : 0 < rpm.toInt) (hm : s.slots[motor.toNat]? = some m) :
      AcceptEffect c s ((s.writeSlot motor.toNat (m.atSpeed rpm)).respondedOnly 0 0)
  /-- MOVE_BY with no step to take (R85). -/
  | moveDone (ts : List Word) (hn : ts.length = s.count.toNat) (hfile : s.count.toNat ≤ s.slots.length)
      (hdone : (s.withMoveTargets ts).allDone = true) :
      AcceptEffect c s ((s.withMoveTargets ts).respondedOnly 0 0)
  /-- MOVE_BY that starts a move (R83). -/
  | moveStarted (ts : List Word) (hn : ts.length = s.count.toNat) (hfile : s.count.toNat ≤ s.slots.length)
      (hdone : (s.withMoveTargets ts).allDone = false) :
      AcceptEffect c s { s.withMoveTargets ts with busy := true, scan := 0 }

theorem accept_effect {c : Command} {s t : State} (h : accept c s = .next t) : AcceptEffect c s t := by
  unfold accept at h
  split at h
  · cases h; exact .answered 7 0
  · next i hi =>
    cases i with
    | construct cap =>
      obtain ⟨-, rfl⟩ | ⟨⟨hpos, hmax⟩, rfl⟩ := execConstruct_cases h
      · exact .answered 1 0
      · exact .constructed cap hpos hmax
    | reg2 spr pinA pinB =>
      obtain ⟨-, rfl⟩ | ⟨-, -, rfl⟩ | ⟨hfree, hspr, hfile, rfl⟩ := registerMotor_cases h
      · exact .answered 2 0
      · exact .answered 3 0
      · exact .registered spr .twoWire pinA pinB _ _ 2 hfree hspr hfile
    | reg4 spr pinA pinB pinC pinD =>
      obtain ⟨-, rfl⟩ | ⟨-, -, rfl⟩ | ⟨hfree, hspr, hfile, rfl⟩ := registerMotor_cases h
      · exact .answered 2 0
      · exact .answered 3 0
      · exact .registered spr .fourWire pinA pinB pinC pinD 0 hfree hspr hfile
    | setSpeed motor rpm =>
      obtain ⟨-, rfl⟩ | ⟨-, -, rfl⟩ | ⟨hmotor, hrpm, m, hm, rfl⟩ := execSetSpeed_cases h
      · exact .answered 6 0
      · exact .answered 4 0
      · exact .spedUp motor rpm m hi hmotor hrpm hm
    | moveBy ts =>
      obtain ⟨-, rfl⟩ | ⟨hn, hfile, ⟨hdone, rfl⟩ | ⟨hdone, rfl⟩⟩ := execMoveBy_cases h
      · exact .answered 5 0
      · exact .moveDone ts hn hfile hdone
      · exact .moveStarted ts hn hfile hdone
    | version => cases h; exact .answered 0 _

/-- No accepted record touches the parameters or the clock (R6, R31). -/
theorem AcceptEffect.environment {c : Command} {s t : State} (h : AcceptEffect c s t) : t.cfg = s.cfg ∧ t.time = s.time := by
  cases h <;> exact ⟨rfl, rfl⟩

/-- The slot file keeps its size (R19). -/
theorem AcceptEffect.slots_length {c : Command} {s t : State} (h : AcceptEffect c s t) : t.slots.length = s.slots.length := by
  cases h with
  | answered => rfl
  | constructed => rfl
  | registered => exact List.length_set
  | spedUp => exact List.length_set
  | moveDone ts hn hfile => exact withTargets_length ts s.slots (hn ▸ hfile)
  | moveStarted ts hn hfile => exact withTargets_length ts s.slots (hn ▸ hfile)

/-- A registration grows `count` by one without a wrap (R68). -/
theorem count_succ_toNat {s : State} (hfree : s.count.toNat < s.capacity.toNat) : (s.count + 1).toNat = s.count.toNat + 1 := by
  have := s.capacity.isLt
  rw [BitVec.toNat_add, show (1 : Word).toNat = 1 from rfl, Nat.mod_eq_of_lt (by omega)]

/-- A registered slot after a registration, other than the new one, was registered before (R68). -/
theorem lt_count_of_lt_withMotor {s : State} {m : Slot} {k j : Nat} (hfree : s.count.toNat < s.capacity.toNat)
    (hj : j < (s.withMotor m k).count.toNat) (hne : j ≠ s.count.toNat) : j < s.count.toNat := by
  have hcount : (s.withMotor m k).count.toNat = s.count.toNat + 1 := count_succ_toNat hfree
  omega

/-! ## The rule of the registered slots -/

/-- What holds of every registered slot and of the slot written holds of every registered slot after the write. -/
theorem forall_registered_of_set {P : Slot → Prop} {s t : State} {i : Nat} {v : Slot} (hslots : t.slots = s.slots.set i v)
    (hcount : ∀ j, j < t.count.toNat → j ≠ i → j < s.count.toNat) (hv : P v) (hs : ∀ m ∈ s.registered, P m) :
    ∀ m ∈ t.registered, P m := by
  intro m hm
  obtain ⟨j, hj, hm⟩ := State.mem_registered.1 hm
  rw [hslots, List.getElem?_set] at hm
  split at hm
  · split at hm
    · cases hm; exact hv
    · cases hm
  · next hij => exact hs m (State.mem_registered.2 ⟨j, hcount j hj (Ne.symm hij), hm⟩)

/-- A registered slot after the setup of a move is one that was registered before, with its target (R83). -/
theorem forall_registered_withMoveTargets {P : Slot → Prop} {s : State} {ts : List Word} (hn : ts.length = s.count.toNat)
    (hfile : s.count.toNat ≤ s.slots.length) (hP : ∀ m target, P m → P (m.withTarget target))
    (hs : ∀ m ∈ s.registered, P m) : ∀ m ∈ (s.withMoveTargets ts).registered, P m := by
  intro m hm
  obtain ⟨j, hj, hm⟩ := State.mem_registered.1 hm
  have hj : j < s.count.toNat := hj
  replace hm : (withTargets ts s.slots)[j]? = some m := hm
  rw [withTargets_getElem? ts s.slots j (by omega), List.getElem?_eq_getElem (by omega : j < ts.length)] at hm
  obtain ⟨m', hm', rfl⟩ := Option.map_eq_some_iff.1 hm
  exact hP m' _ (hs m' (State.mem_registered.2 ⟨j, hj, hm'⟩))

/-- A property of a slot that the block keeps: a registration sets it up, and SET_SPEED, the setup of a move and an
evaluation keep it. -/
structure SlotStable (P : Slot → Prop) : Prop where
  registered : ∀ {spr : Word} (w : Wiring) (pinA pinB pinC pinD : Word), 0 < spr.toInt →
    P (Slot.registered spr w pinA pinB pinC pinD)
  atSpeed : ∀ m rpm, P m → P (m.atSpeed rpm)
  withTarget : ∀ m target, P m → P (m.withTarget target)
  evaluated : ∀ m now, P m → P (m.evaluated now)

theorem SlotStable.accept {P : Slot → Prop} (hP : SlotStable P) {c : Command} {s t : State} (h : AcceptEffect c s t)
    (hs : ∀ m ∈ s.registered, P m) : ∀ m ∈ t.registered, P m := by
  cases h with
  | answered => exact hs
  | constructed =>
    intro m hm
    rw [State.registered_of_count_zero rfl] at hm
    cases hm
  | registered spr w a b c d k hfree hspr hfile =>
    exact forall_registered_of_set rfl (fun _ => lt_count_of_lt_withMotor hfree) (hP.registered w a b c d hspr) hs
  | spedUp motor rpm m hd hmotor hrpm hm =>
    exact forall_registered_of_set rfl (fun j hj _ => hj)
      (hP.atSpeed m rpm (hs m (State.mem_registered.2 ⟨_, hmotor, hm⟩))) hs
  | moveDone ts hn hfile => exact forall_registered_withMoveTargets hn hfile hP.withTarget hs
  | moveStarted ts hn hfile => exact forall_registered_withMoveTargets hn hfile hP.withTarget hs

/-- The registered slots after an evaluation are those after the scanned slot's. -/
theorem evaluate_registered {s t : State} (h : evaluate s = .next t) :
    ∃ m, m ∈ s.registered ∧ t.registered = (s.afterSlot m).registered := by
  obtain ⟨m, hc, hm, ⟨-, rfl⟩ | ⟨-, rfl⟩⟩ := evaluate_cases h <;>
    exact ⟨m, State.mem_registered.2 ⟨_, hc, hm⟩, rfl⟩

theorem SlotStable.evaluate {P : Slot → Prop} (hP : SlotStable P) {s t : State} (h : evaluate s = .next t)
    (hs : ∀ m ∈ s.registered, P m) : ∀ m ∈ t.registered, P m := by
  obtain ⟨m, hm, ht⟩ := evaluate_registered h
  intro x hx
  rw [ht] at hx
  obtain rfl | hx := mem_registered_afterSlot hx
  · exact hP.evaluated m _ (hs m hm)
  · exact hs x hx

/-- The clauses of R18 about a slot (R20, R21). -/
def Slot.IndexInRange (m : Slot) : Prop := m.stepIndex.toNat < m.spr.toNat ∧ 1 ≤ m.spr.toNat ∧ m.spr.toNat ≤ 2 ^ 31 - 1

theorem slotStable_indexInRange : SlotStable Slot.IndexInRange where
  registered w a b c d h := by
    obtain ⟨⟨h1, h2⟩, h3, -, -⟩ := Slot.registered_legal (w := w) (a := a) (b := b) (c := c) (d := d) h
    exact ⟨h3, h1, h2⟩
  atSpeed _ _ h := h
  withTarget _ _ h := h
  evaluated m now h := by
    unfold Slot.evaluated
    split
    · exact ⟨nextIndex_lt h.1 _, h.2⟩
    · exact h

/-- A slot keeps the ranges of R20, R21, R23 and R27. -/
theorem slotStable_legal : SlotStable Slot.Legal where
  registered _ _ _ _ _ h := Slot.registered_legal h
  atSpeed m rpm h := by
    obtain ⟨hspr, hindex, -, hremaining⟩ := h
    refine ⟨hspr, hindex, ?_, hremaining⟩
    show (intervalOf m.spr rpm).toNat ≤ 60000
    rw [intervalOf_toNat]
    exact Nat.div_le_self _ _
  withTarget m target h := by
    obtain ⟨hspr, hindex, hinterval, -⟩ := h
    refine ⟨hspr, hindex, hinterval, ?_⟩
    show (absWord target.toInt).toNat ≤ 2 ^ 31
    have hlow := BitVec.le_toInt target
    have hhigh := BitVec.toInt_lt (x := target)
    rw [absWord_toNat]
    omega
  evaluated _ now h := Slot.evaluated_legal h now

/-! ## The bank invariants of R18 -/

/-- R18's clauses read only these fields. -/
theorem State.BankInvariants.congr {s t : State} (h : s.BankInvariants) (hcfg : t.cfg = s.cfg) (hslots : t.slots = s.slots)
    (hcount : t.count = s.count) (hcap : t.capacity = s.capacity) (hbusy : t.busy = s.busy) (hscan : t.scan = s.scan) :
    t.BankInvariants := by
  have hr : t.registered = s.registered := by rw [State.registered, hslots, hcount]; rfl
  obtain ⟨h1, h2, h3, h4, h5⟩ := h
  constructor
  · rwa [hcount, hcap]
  · rwa [hcap, hcfg]
  · rwa [hr]
  · rwa [hbusy, hcount, hscan]
  · rwa [hbusy, hr]

theorem State.BankInvariants.afterTick {s : State} (h : s.BankInvariants) : s.afterTick.BankInvariants :=
  h.congr (by simp) (by simp) (by simp) (by simp) (by simp) (by simp)

theorem State.BankInvariants.offering {s : State} (h : s.BankInvariants) (cs : List Command) :
    (s.offering cs).BankInvariants :=
  h.congr rfl rfl rfl rfl rfl rfl

/-- An empty bank of capacity 0 that does not move meets R18 (R37, R125). -/
theorem bankInvariants_of_zero {s : State} (hcap : s.capacity = 0) (hcount : s.count = 0) (hbusy : s.busy = false) :
    s.BankInvariants := by
  have hr := State.registered_of_count_zero hcount
  constructor
  · simp [hcount]
  · simp [hcap]
  · simp [hr]
  · simp [hbusy]
  · simp [hr]

/-- A positive capacity within `MAX_SLOTS` is within it as an unsigned word (R67). -/
theorem toNat_le_of_toInt_le {w : Word} {n : Nat} (hpos : 0 < w.toInt) (h : w.toInt ≤ (n : Int)) : w.toNat ≤ n := by
  rw [toInt_eq_toNat_of_pos hpos] at h
  omega

theorem AcceptEffect.count_capacity {c : Command} {s t : State} (h : AcceptEffect c s t)
    (hcount : s.count.toNat ≤ s.capacity.toNat) (hcap : s.capacity.toNat ≤ s.cfg.maxSlots) :
    t.count.toNat ≤ t.capacity.toNat ∧ t.capacity.toNat ≤ t.cfg.maxSlots := by
  cases h with
  | constructed cap hpos hmax => exact ⟨Nat.zero_le _, toNat_le_of_toInt_le hpos hmax⟩
  | registered spr w a b c d k hfree hspr hfile =>
    refine ⟨?_, hcap⟩
    show (s.count + 1).toNat ≤ s.capacity.toNat
    rw [count_succ_toNat hfree]
    exact hfree
  | _ => exact ⟨hcount, hcap⟩

/-- An idle block that accepts a record is busy afterwards exactly because a move started, at slot 0 with steps left (R83). -/
theorem AcceptEffect.of_busy {c : Command} {s t : State} (h : AcceptEffect c s t) (hidle : s.busy = false)
    (hbusy : t.busy = true) : t.scan = 0 ∧ t.allDone = false := by
  have no : s.busy = true → t.scan = 0 ∧ t.allDone = false := fun hb => absurd hb (by simp [hidle])
  cases h with
  | moveStarted ts hn hfile hdone => exact ⟨rfl, hdone⟩
  | _ => exact no hbusy

/-- With steps left there is a registered motor. -/
theorem count_pos_of_not_allDone {s : State} (h : s.allDone = false) : 0 < s.count.toNat := by
  obtain ⟨m, hm, -⟩ := State.not_allDone_iff.1 h
  obtain ⟨i, hi, -⟩ := State.mem_registered.1 hm
  omega

/-- An idle block that stays idle has no steps left (R18, R83, R85). -/
theorem AcceptEffect.allDone_of_idle {c : Command} {s t : State} (h : AcceptEffect c s t) (hdone : s.allDone = true)
    (hidle : t.busy = false) : t.allDone = true := by
  rw [State.allDone_iff] at hdone
  cases h with
  | answered => exact State.allDone_iff.2 hdone
  | constructed => rw [State.allDone, State.registered_of_count_zero rfl]; rfl
  | registered spr w a b c d k hfree hspr hfile =>
    exact State.allDone_iff.2 (forall_registered_of_set rfl (fun _ => lt_count_of_lt_withMotor hfree) rfl hdone)
  | spedUp motor rpm m hd hmotor hrpm hm =>
    have hm0 : (m.atSpeed rpm).remaining = 0 := hdone m (State.mem_registered.2 ⟨_, hmotor, hm⟩)
    exact State.allDone_iff.2 (forall_registered_of_set rfl (fun j hj _ => hj) hm0 hdone)
  | moveDone ts hn hfile hdone => exact hdone
  | moveStarted => cases hidle

/-- R18 states "no steps left" by the unsigned reading of each counter. -/
theorem allDone_iff_toNat {s : State} : s.allDone = true ↔ ∀ m ∈ s.registered, m.remaining.toNat = 0 := by
  simp only [State.allDone_iff, BitVec.toNat_eq]
  rfl

theorem accept_keeps_bankInvariants {c : Command} {s t : State} (hs : s.BankInvariants) (hidle : s.busy = false)
    (h : accept c s = .next t) : t.BankInvariants := by
  have he := accept_effect h
  obtain ⟨hcount, hcap⟩ := he.count_capacity hs.countLeCapacity hs.capacityLeMaxSlots
  refine ⟨hcount, hcap, slotStable_indexInRange.accept he hs.slotsLegal, fun hbusy => ?_, fun hbusy => ?_⟩
  · obtain ⟨hscan, hactive⟩ := he.of_busy hidle hbusy
    have hpos := count_pos_of_not_allDone hactive
    exact ⟨hpos, by rw [hscan]; exact hpos⟩
  · exact allDone_iff_toNat.1 (he.allDone_of_idle (allDone_iff_toNat.2 (hs.idleDone hidle)) hbusy)

/-- An evaluation leaves a busy block busy with steps left and the scan at a registered slot, or idle with none left
(R87, R88, R89). -/
theorem evaluate_busy {s t : State} (h : evaluate s = .next t) :
    (t.busy = false ∧ t.scan = s.scan ∧ t.allDone = true) ∨
      (t.busy = s.busy ∧ t.scan.toNat < s.count.toNat ∧ t.allDone = false) := by
  obtain ⟨m, hc, -, ⟨hd, rfl⟩ | ⟨hd, rfl⟩⟩ := evaluate_cases h
  · exact .inl ⟨rfl, rfl, hd⟩
  · refine .inr ⟨rfl, ?_, hd⟩
    show (BitVec.ofNat 32 ((s.scan.toNat + 1) % s.count.toNat)).toNat < s.count.toNat
    exact lt_of_le_of_lt (Nat.mod_le _ _) (Nat.mod_lt _ (by omega))

theorem evaluate_keeps_bankInvariants {s t : State} (hs : s.BankInvariants) (hbusy : s.busy = true)
    (h : evaluate s = .next t) : t.BankInvariants := by
  obtain ⟨hcfg, -, -, -, hcount, hcap⟩ := evaluate_environment h
  have hslots := slotStable_indexInRange.evaluate h hs.slotsLegal
  refine ⟨by rw [hcount, hcap]; exact hs.countLeCapacity, by rw [hcap, hcfg]; exact hs.capacityLeMaxSlots, hslots, ?_, ?_⟩
  · intro hb
    obtain ⟨hb', -⟩ | ⟨-, hscan, -⟩ := evaluate_busy h
    · simp [hb] at hb'
    · rw [hcount]; exact ⟨by omega, hscan⟩
  · intro hb
    obtain ⟨-, -, hdone⟩ | ⟨hb', -⟩ := evaluate_busy h
    · exact allDone_iff_toNat.1 hdone
    · simp [hb, hbusy] at hb'

theorem resetAction_bankInvariants (s : State) : (resetAction s).BankInvariants := bankInvariants_of_zero rfl rfl rfl

/-- A property that the environment's part of a step and each of the three actions keep is kept by a step (R10). -/
theorem step_keeps {I : State → Prop} (tick : ∀ {s}, I s → I s.afterTick) (offer : ∀ {s}, I s → ∀ cs, I (s.offering cs))
    (reset : ∀ {s}, I s → I (resetAction s)) (eval : ∀ {s t}, I s → s.busy = true → evaluate s = .next t → I t)
    (acc : ∀ {c s t}, I s → s.busy = false → accept c s = .next t → I t) {s t : State} (hs : I s)
    (h : step s = .next t) : I t := by
  obtain ⟨-, rfl⟩ | ⟨-, hb, he⟩ | ⟨-, -, -, rfl⟩ | ⟨-, hb, c, rest, -, ha⟩ := step_cases h
  · exact reset (tick hs)
  · exact eval (tick hs) (by simpa using hb) he
  · exact tick hs
  · exact acc (offer (tick hs) rest) (by simpa using hb) ha

theorem step_keeps_bankInvariants {s t : State} (hs : s.BankInvariants) (h : step s = .next t) : t.BankInvariants :=
  step_keeps (I := State.BankInvariants) State.BankInvariants.afterTick State.BankInvariants.offering
    (fun {s} _ => resetAction_bankInvariants s) evaluate_keeps_bankInvariants accept_keeps_bankInvariants hs h

theorem perform_keeps_bankInvariants {a : Action} {s t : State} (hs : s.BankInvariants)
    (hidle : ∀ c, a = .accept c → s.busy = false) (hbusy : a = .evaluate → s.busy = true) (h : perform a s = .next t) :
    t.BankInvariants := by
  cases a with
  | accept c => exact accept_keeps_bankInvariants (hs.offering s.offered.tail) (hidle c rfl) h
  | evaluate => exact evaluate_keeps_bankInvariants hs (hbusy rfl) h
  | reset => cases h; exact resetAction_bankInvariants s

theorem State.Inv.bankInvariants {s : State} (h : s.Inv) : s.BankInvariants where
  countLeCapacity := h.countLeCapacity
  capacityLeMaxSlots := h.capacityLeMaxSlots
  slotsLegal m hm := by
    obtain ⟨⟨h1, h2⟩, h3, -, -⟩ := h.slotsLegal m hm
    exact ⟨h3, h1, h2⟩
  scanRegistered hb := ⟨count_pos_of_not_allDone (h.busyActive hb), h.scanRegistered hb⟩
  idleDone hb := allDone_iff_toNat.1 (h.idleDone hb)

/-- Settles O53: each action, and a step, keeps R18's own clauses. -/
theorem everyActionPreservesTheInvariantsOfR18 : Obligations.EveryActionPreservesTheInvariantsOfR18 :=
  ⟨fun _ _ _ hs hidle hbusy h => perform_keeps_bankInvariants hs hidle hbusy h,
    fun _ _ hs h => step_keeps_bankInvariants hs h, fun _ hs => hs.bankInvariants⟩

/-! ## The sink and the trace (R32, R33) -/

/-- The trace of `t` is that of `s` with at most four pin events and then at most one response added, and the sink is what
the pin events make of it. -/
def SinkFollows (s t : State) : Prop :=
  ∃ evs rsp, t.trace = s.trace ++ evs ++ rsp ∧ t.pins = evs.foldl sinkAfter s.pins ∧ responseOf evs = none ∧
    evs.length ≤ 4 ∧ (rsp = [] ∨ ∃ status data, rsp = [.respond status data])

theorem SinkFollows.silent {s t : State} (htrace : t.trace = s.trace) (hpins : t.pins = s.pins) : SinkFollows s t :=
  ⟨[], [], by simp [htrace], hpins, rfl, Nat.zero_le _, .inl rfl⟩

theorem SinkFollows.responded {s t : State} {st : BitVec 4} {d : Word} (htrace : t.trace = s.trace ++ [.respond st d])
    (hpins : t.pins = s.pins) : SinkFollows s t :=
  ⟨[], [.respond st d], by simp [htrace], hpins, rfl, Nat.zero_le _, .inr ⟨st, d, rfl⟩⟩

theorem Slot.pins_length_le (m : Slot) : m.pins.length ≤ 4 := by
  unfold Slot.pins
  cases m.wiring <;> simp

theorem responseOf_map_sinkConfigure (ps : List Word) : responseOf (ps.map .sinkConfigure) = none := by
  induction ps with
  | nil => rfl
  | cons p ps ih => exact ih

theorem AcceptEffect.sinkFollows {c : Command} {s t : State} (h : AcceptEffect c s t) : SinkFollows s t := by
  cases h with
  | answered => exact .responded rfl rfl
  | constructed => exact .responded rfl rfl
  | registered spr w a b c d k =>
    refine ⟨(Slot.registered spr w a b c d).pins.map .sinkConfigure, [.respond 0 s.count], rfl, ?_,
      responseOf_map_sinkConfigure _, ?_, .inr ⟨_, _, rfl⟩⟩
    · rw [List.foldl_map]; rfl
    · rw [List.length_map]; exact Slot.pins_length_le _
  | spedUp => exact .responded rfl rfl
  | moveDone => exact .responded rfl rfl
  | moveStarted => exact .silent rfl rfl

theorem evaluate_sinkFollows {s t : State} (h : evaluate s = .next t) : SinkFollows s t := by
  obtain ⟨m, -, -, ⟨-, rfl⟩ | ⟨-, rfl⟩⟩ := evaluate_cases h
  · exact ⟨m.writes s.nowMs, [.respond 0 0], rfl, rfl, responseOf_writes m _, Slot.writes_length_le m _, .inr ⟨_, _, rfl⟩⟩
  · exact ⟨m.writes s.nowMs, [], (List.append_nil _).symm, rfl, responseOf_writes m _, Slot.writes_length_le m _, .inl rfl⟩

/-- Only the trace and the sink before the action count, so the environment's part of a step may come first. -/
theorem SinkFollows.of_eq {s s' t : State} (h : SinkFollows s' t) (htrace : s'.trace = s.trace) (hpins : s'.pins = s.pins) :
    SinkFollows s t := by
  unfold SinkFollows at h ⊢
  rwa [htrace, hpins] at h

/-- Settles O48, action by action. -/
theorem sinkFollowsTheTrace : Obligations.SinkFollowsTheTrace := by
  intro s t h
  show SinkFollows s t
  obtain ⟨-, rfl⟩ | ⟨-, -, he⟩ | ⟨-, -, -, rfl⟩ | ⟨-, -, c, rest, -, ha⟩ := step_cases h
  · exact .silent (by simp) (by simp)
  · exact (evaluate_sinkFollows he).of_eq (by simp) (by simp)
  · exact .silent (by simp) (by simp)
  · exact (accept_effect ha).sinkFollows.of_eq (by simp) (by simp)

theorem SinkFollows.pinsWf {s t : State} (h : SinkFollows s t) (hs : PinsWf s.pins) : PinsWf t.pins := by
  obtain ⟨evs, rsp, -, hpins, -⟩ := h
  rw [hpins]
  exact foldl_sinkAfter_wf hs evs

/-- Settles O39: what each event leaves at each pin. -/
theorem eventsDriveTheSink : Obligations.EventsDriveTheSink := fun _ hs =>
  ⟨fun p q => pinGet_sinkConfigured hs p q, fun p q l => pinGet_sinkWritten hs p q l, fun _ _ _ => rfl⟩

/-! ## The model's invariant (log 14) -/

/-- An empty bank of capacity 0 that does not move meets the model's invariant (R37, R125). -/
theorem inv_of_zero {s : State} (hcap : s.capacity = 0) (hcount : s.count = 0) (hbusy : s.busy = false) (hscan : s.scan = 0)
    (hcfg : s.cfg.Legal) (hfile : s.slots.length = s.cfg.maxSlots) (hpins : PinsWf s.pins) : s.Inv := by
  have hbank := bankInvariants_of_zero hcap hcount hbusy
  have hr := State.registered_of_count_zero hcount
  exact ⟨hcfg, hfile, hbank.countLeCapacity, hbank.capacityLeMaxSlots, by simp [hr], by rw [hscan]; exact hcfg.1,
    by simp [hbusy], by simp [State.allDone, hr], by simp [hbusy], hpins⟩

theorem State.Inv.resetAction {s : State} (h : s.Inv) : (resetAction s).Inv :=
  inv_of_zero rfl rfl rfl rfl h.parameters List.length_replicate h.sinkCanonical

theorem resetFor_inv {cfg : Config} (h : cfg.Legal) (time : Nat) : (State.resetFor cfg time).Inv :=
  inv_of_zero rfl rfl rfl rfl h List.length_replicate pinsWf_nil

/-- No accepted record but a MOVE_BY moves the scan, and that sets it to 0 (R17, R83). -/
theorem AcceptEffect.scan_eq {c : Command} {s t : State} (h : AcceptEffect c s t) : t.scan = s.scan ∨ t.scan = 0 := by
  cases h with
  | moveStarted => exact .inr rfl
  | _ => exact .inl rfl

theorem accept_keeps_inv {c : Command} {s t : State} (hs : s.Inv) (hidle : s.busy = false) (h : accept c s = .next t) :
    t.Inv := by
  have he := accept_effect h
  have hbank := accept_keeps_bankInvariants hs.bankInvariants hidle h
  obtain ⟨hcfg, -⟩ := he.environment
  exact {
    parameters := hcfg ▸ hs.parameters
    fileSize := by rw [he.slots_length, hcfg, hs.fileSize]
    countLeCapacity := hbank.countLeCapacity
    capacityLeMaxSlots := hbank.capacityLeMaxSlots
    slotsLegal := slotStable_legal.accept he hs.slotsLegal
    scanInFile := by
      rw [hcfg]
      obtain hscan | hscan := he.scan_eq
      · rw [hscan]; exact hs.scanInFile
      · rw [hscan]; exact hs.parameters.1
    scanRegistered := fun hb => (hbank.scanRegistered hb).2
    idleDone := fun hb => allDone_iff_toNat.2 (hbank.idleDone hb)
    busyActive := fun hb => (he.of_busy hidle hb).2
    sinkCanonical := he.sinkFollows.pinsWf hs.sinkCanonical }

theorem evaluate_keeps_inv {s t : State} (hs : s.Inv) (hbusy : s.busy = true) (h : evaluate s = .next t) : t.Inv := by
  have hbank := evaluate_keeps_bankInvariants hs.bankInvariants hbusy h
  obtain ⟨hcfg, -⟩ := evaluate_environment h
  obtain ⟨m, -, -, hslots⟩ := evaluate_slots h
  exact {
    parameters := hcfg ▸ hs.parameters
    fileSize := by rw [hslots, List.length_set, hcfg, hs.fileSize]
    countLeCapacity := hbank.countLeCapacity
    capacityLeMaxSlots := hbank.capacityLeMaxSlots
    slotsLegal := slotStable_legal.evaluate h hs.slotsLegal
    scanInFile := by
      rw [hcfg]
      obtain ⟨-, hscan, -⟩ | ⟨-, hscan, -⟩ := evaluate_busy h
      · rw [hscan]; exact hs.scanInFile
      · exact lt_of_lt_of_le hscan (hs.countLeCapacity.trans hs.capacityLeMaxSlots)
    scanRegistered := fun hb => (hbank.scanRegistered hb).2
    idleDone := fun hb => allDone_iff_toNat.2 (hbank.idleDone hb)
    busyActive := fun hb => by
      obtain ⟨hb', -⟩ | ⟨-, -, hactive⟩ := evaluate_busy h
      · simp [hb] at hb'
      · exact hactive
    sinkCanonical := (evaluate_sinkFollows h).pinsWf hs.sinkCanonical }

/-- Settles O46: the environment's part of a step, reset, an evaluation and an accepted record each keep the invariant. -/
theorem everyStepKeepsTheBankInvariants : Obligations.EveryStepKeepsTheBankInvariants := fun _ _ hs h =>
  step_keeps (I := State.Inv) State.Inv.afterTick State.Inv.offering State.Inv.resetAction evaluate_keeps_inv accept_keeps_inv hs h

/-! ## The state after reset (R6, R37) -/

theorem implementation_legal : Config.implementation.Legal :=
  ⟨Nat.succ_pos _, Config.slotsBeyondFirst.isLt⟩

/-- Settles O12: no slot is registered while `count` is 0, and the parameters of the machine at hand are legal. -/
theorem resetStateHoldsTheStatedValues : Obligations.ResetStateHoldsTheStatedValues :=
  ⟨fun _ _ => ⟨rfl, rfl, rfl, rfl, State.registered_of_count_zero rfl, rfl⟩, _, _, implementation_legal, rfl⟩

/-- Settles O45: the bank is empty after reset. -/
theorem bankInvariantsHoldAtReset : Obligations.BankInvariantsHoldAtReset :=
  have hinv := resetFor_inv implementation_legal Config.startTime
  ⟨fun _ time h => ⟨resetFor_inv h time, (resetFor_inv h time).bankInvariants⟩, hinv, hinv.bankInvariants⟩

/-! ## What a step leaves alone -/

/-- Settles O51: only the environment's part of a step moves the clock, and nothing writes the parameters. -/
theorem parametersStayAndTimeIsMonotone : Obligations.ParametersStayAndTimeIsMonotone := by
  intro s t h
  have key : t.cfg = s.afterTick.cfg ∧ t.time = s.afterTick.time := by
    obtain ⟨-, rfl⟩ | ⟨-, -, he⟩ | ⟨-, -, -, rfl⟩ | ⟨-, -, c, rest, -, ha⟩ := step_cases h
    · exact ⟨rfl, rfl⟩
    · obtain ⟨hcfg, htime, -⟩ := evaluate_environment he
      exact ⟨hcfg, htime⟩
    · exact ⟨rfl, rfl⟩
    · exact (accept_effect ha).environment
  obtain ⟨hcfg, htime⟩ := key
  rw [State.afterTick_time] at htime
  exact ⟨by rw [hcfg, State.afterTick_cfg], htime, by omega⟩

/-- `m'` has what the registration of `m` fixed: `spr`, wiring and driven pins (R21, R25, R26). -/
def Slot.SameMotor (m m' : Slot) : Prop := m'.spr = m.spr ∧ m'.wiring = m.wiring ∧ m'.pins = m.pins

theorem Slot.SameMotor.refl (m : Slot) : m.SameMotor m := ⟨rfl, rfl, rfl⟩

/-- The setup of a move gives a registered slot its target, which leaves the motor and its interval alone (R83). -/
theorem withMoveTargets_slot {s : State} {ts : List Word} {j : Nat} {m : Slot} (hn : ts.length = s.count.toNat)
    (hfile : s.count.toNat ≤ s.slots.length) (hm : s.slots[j]? = some m) :
    ∃ m', (s.withMoveTargets ts).slots[j]? = some m' ∧ m.SameMotor m' ∧ m'.interval = m.interval := by
  show ∃ m', (withTargets ts s.slots)[j]? = some m' ∧ _
  rw [withTargets_getElem? ts s.slots j (by omega), hm]
  cases ts[j]? with
  | none => exact ⟨m, rfl, .refl m, rfl⟩
  | some target => exact ⟨m.withTarget target, rfl, .refl m, rfl⟩

/-- A registered slot after accepting a record: the same motor, and the same interval but for a SET_SPEED of it. -/
theorem AcceptEffect.slot {c : Command} {s t : State} (h : AcceptEffect c s t) {j : Nat} {m : Slot}
    (hj : j < s.count.toNat) (hm : s.slots[j]? = some m) :
    ∃ m', t.slots[j]? = some m' ∧ m.SameMotor m' ∧
      (m'.interval = m.interval ∨ ∃ motor rpm, decode c = .instr (.setSpeed motor rpm) ∧ motor.toNat = j) := by
  cases h with
  | answered => exact ⟨m, hm, .refl m, .inl rfl⟩
  | constructed => exact ⟨m, hm, .refl m, .inl rfl⟩
  | registered => exact ⟨m, (List.getElem?_set_ne (by omega)).trans hm, .refl m, .inl rfl⟩
  | spedUp motor rpm x hd hmotor hrpm hx =>
    by_cases hij : motor.toNat = j
    · subst hij
      obtain rfl : m = x := Option.some.inj (hm.symm.trans hx)
      exact ⟨m.atSpeed rpm, List.getElem?_set_self (List.getElem?_eq_some_iff.1 hm).1, .refl m, .inr ⟨motor, rpm, hd, rfl⟩⟩
    · exact ⟨m, (List.getElem?_set_ne hij).trans hm, .refl m, .inl rfl⟩
  | moveDone ts hn hfile =>
    obtain ⟨m', hm', hsame, hinterval⟩ := withMoveTargets_slot hn hfile hm
    exact ⟨m', hm', hsame, .inl hinterval⟩
  | moveStarted ts hn hfile =>
    obtain ⟨m', hm', hsame, hinterval⟩ := withMoveTargets_slot hn hfile hm
    exact ⟨m', hm', hsame, .inl hinterval⟩

theorem evaluate_slot {s t : State} (h : evaluate s = .next t) {j : Nat} {m : Slot} (hm : s.slots[j]? = some m) :
    ∃ m', t.slots[j]? = some m' ∧ m.SameMotor m' ∧ m'.interval = m.interval := by
  obtain ⟨x, -, hx, hslots⟩ := evaluate_slots h
  rw [hslots]
  by_cases hij : s.scan.toNat = j
  · subst hij
    obtain rfl : m = x := Option.some.inj (hm.symm.trans hx)
    exact ⟨m.evaluated s.nowMs, List.getElem?_set_self (List.getElem?_eq_some_iff.1 hm).1, ⟨by simp, by simp, by simp⟩, by simp⟩
  · exact ⟨m, (List.getElem?_set_ne hij).trans hm, .refl m, rfl⟩

/-- The action of an idle step that is offered a record (R53). -/
theorem nextAction_accept {s : State} {c : Command} {rest : List Command} (hr : s.tick.rst = false) (hb : s.busy = false)
    (ho : s.offered = c :: rest) : s.nextAction = some (.accept c) := by
  simp [State.nextAction, hr, hb, ho]

/-- Settles O52, action by action. -/
theorem registeredFieldsAreFixed : Obligations.RegisteredFieldsAreFixed := by
  intro s t j m hrst h hj hm
  obtain ⟨hr, -⟩ | ⟨-, -, he⟩ | ⟨-, -, -, rfl⟩ | ⟨-, hb, c, rest, ho, ha⟩ := step_cases h
  · simp [hrst] at hr
  · obtain ⟨m', hm', ⟨hspr, hwiring, hpins⟩, hinterval⟩ := evaluate_slot he (j := j) (m := m) (by simpa using hm)
    exact ⟨m', hm', hspr, hwiring, hpins, .inl hinterval⟩
  · exact ⟨m, by simpa using hm, rfl, rfl, rfl, .inl rfl⟩
  · obtain ⟨m', hm', ⟨hspr, hwiring, hpins⟩, hinterval⟩ :=
      (accept_effect ha).slot (j := j) (m := m) (by simpa using hj) (by simpa using hm)
    exact ⟨m', hm', hspr, hwiring, hpins, hinterval.imp_right fun ⟨motor, rpm, hd, he⟩ =>
      ⟨c, motor, rpm, nextAction_accept hrst hb ho, hd, he⟩⟩

end Sys2Proof.Machine

/-! ## Decoding and encoding a record (R50 to R64) -/

namespace Sys2Proof

open Sys2Proof.Machine

/-- The operation of a command (R52). -/
def Instr.op : Instr → Op
  | .construct _ => .construct
  | .reg2 _ _ _ => .reg2
  | .reg4 _ _ _ _ _ => .reg4
  | .setSpeed _ _ => .setSpeed
  | .moveBy targets => .moveBy (BitVec.ofNat 8 targets.length)
  | .version => .version

theorem encode_hdr (i : Instr) : (encode i).hdr = i.op.header := by cases i <;> rfl

/-- The operands are made of the argument words that the operation reads, and of no other (R57, R59). -/
theorem operandsOf_congr {c c' : Command} {o : Op} (h : ∀ k, k < operandWords o → c'.arg k = c.arg k) :
    operandsOf c' o = operandsOf c o := by
  cases o with
  | moveBy n => exact congrArg Instr.moveBy (List.map_congr_left fun k hk => h k (List.mem_range.1 hk))
  | _ => simp only [operandWords] at h; simp [operandsOf, h]

theorem decode_congr {c c' : Command} (hh : c'.hdr = c.hdr)
    (h : ∀ o, decodeHeader c.hdr = .op o → ∀ k, k < operandWords o → c'.arg k = c.arg k) : decode c' = decode c := by
  cases hd : decodeHeader c.hdr with
  | illegal why => rw [decode_of_illegal hd, decode_of_illegal (hh ▸ hd)]
  | op o => rw [decode_of_op hd, decode_of_op (hh ▸ hd), operandsOf_congr (h o hd)]

/-- Padding adds words that read as 0 already (R62; log 9). -/
theorem padded_arg (cfg : Config) (c : Command) (k : Nat) : (c.padded cfg).arg k = c.arg k := by
  show (c.args ++ List.replicate _ 0).getD k 0 = c.args.getD k 0
  by_cases hk : k < c.args.length
  · rw [List.getD_append _ _ _ _ hk]
  · rw [List.getD_append_right _ _ _ _ (not_lt.1 hk), List.getD_eq_default c.args _ (not_lt.1 hk),
      List.getD_eq_getElem?_getD, List.getElem?_replicate]
    split <;> rfl

theorem decode_padded (cfg : Config) (c : Command) : decode (c.padded cfg) = decode c :=
  decode_congr rfl fun _ _ k _ => padded_arg cfg c k

theorem range_map_arg (c : Command) : (List.range c.args.length).map c.arg = c.args := by
  refine List.ext_getElem (by simp) fun k _ hk => ?_
  simp [Command.arg, hk]

/-- The `N` field holds the whole number of targets, so that each operand is read back (R54, R57). -/
theorem operandsOf_encode {i : Instr} (h : i.wellFormed = true) : operandsOf (encode i) i.op = i := by
  cases i with
  | moveBy targets =>
    have hl : targets.length ≤ 255 := of_decide_eq_true h
    have hn : (BitVec.ofNat 8 targets.length).toNat = targets.length := Nat.mod_eq_of_lt (by omega)
    show Instr.moveBy ((List.range (BitVec.ofNat 8 targets.length).toNat).map (encode (.moveBy targets)).arg) = _
    rw [hn]
    exact congrArg Instr.moveBy (range_map_arg (encode (.moveBy targets)))
  | _ => rfl

theorem decode_encode {i : Instr} (h : i.wellFormed = true) : decode (encode i) = .instr i := by
  have hd : decodeHeader (encode i).hdr = .op i.op := by rw [encode_hdr, decodeHeader_header]
  rw [decode_of_op hd, operandsOf_encode h]

/-- Settles O1: the header carries the operation, and padding changes no argument word. -/
theorem decodeEncodeRoundTrip : Obligations.DecodeEncodeRoundTrip := fun cfg _ h =>
  ⟨decode_encode h, (decode_padded cfg _).trans (decode_encode h)⟩

/-- The record of the command that a record's words make has those words and no other (R57, R62). -/
theorem encode_operandsOf (c : Command) (o : Op) :
    encode (operandsOf c o) = ⟨o.header, (List.range (operandWords o)).map c.arg⟩ := by
  cases o with
  | moveBy n => simp [operandsOf, encode, operandWords]
  | _ => rfl

theorem operandsOf_wellFormed (c : Command) (o : Op) : (operandsOf c o).wellFormed = true := by
  cases o with
  | moveBy n =>
    have := n.isLt
    simp only [operandsOf, Instr.wellFormed, List.length_map, List.length_range, decide_eq_true_eq]
    omega
  | _ => rfl

/-- Settles O2 by the encoding of the operands read. -/
theorem decodedRecordReencodes : Obligations.DecodedRecordReencodes := by
  intro c i h
  obtain ⟨o, ho, rfl⟩ := hdr_of_decode_eq_instr h
  rw [encode_operandsOf]
  refine ⟨operandsOf_wellFormed c o, ho.symm, fun k hk => ?_⟩
  have hk : k < operandWords o := by simpa using hk
  simp [hk]

theorem not_illegalHeader_header (o : Op) : ¬ IllegalHeader o.header := by
  cases o <;> simp [IllegalHeader, Op.header]

/-- Each check of R56 that fails is one of the cases of R60. -/
theorem illegalHeader_of_decodeHeader {h : Word} {why : Illegal} (hd : decodeHeader h = .illegal why) :
    IllegalHeader h := by
  have coded : ∀ {k : BitVec 8}, (headerOp h).toNat = k.toNat → headerOp h = k := BitVec.eq_of_toNat_eq
  have counted : ∀ {k : BitVec 8} {o : Op}, (headerOp h).toNat = k.toNat →
      k = 0x01 ∨ k = 0x02 ∨ k = 0x03 ∨ k = 0x04 ∨ k = 0x06 → withoutCount h o = .illegal why → IllegalHeader h := by
    intro k o hk hop hw
    refine .inr (.inr ⟨(coded hk).symm ▸ hop, fun hn => ?_⟩)
    simp [withoutCount, hn] at hw
  unfold decodeHeader at hd
  split at hd
  · next hr => exact .inl hr
  · split at hd
    · next hk => exact counted (k := 1) hk (by decide) hd
    · next hk => exact counted (k := 2) hk (by decide) hd
    · next hk => exact counted (k := 3) hk (by decide) hd
    · next hk => exact counted (k := 4) hk (by decide) hd
    · cases hd
    · next hk => exact counted (k := 6) hk (by decide) hd
    · simp only [imp_false] at *
      by_cases h0 : (headerOp h).toNat = 0
      · exact .inr (.inl (.inl (coded (k := 0) h0)))
      · exact .inr (.inl (.inr (by omega)))

theorem decodeHeader_eq_illegal {h : Word} : (∃ why, decodeHeader h = .illegal why) ↔ IllegalHeader h := by
  refine ⟨fun ⟨_, hd⟩ => illegalHeader_of_decodeHeader hd, fun hi => ?_⟩
  cases hd : decodeHeader h with
  | illegal why => exact ⟨why, rfl⟩
  | op o => exact absurd (eq_header_of_decodeHeader hd ▸ hi) (not_illegalHeader_header o)

theorem decode_eq_illegal {c : Command} {why : Illegal} : decode c = .illegal why ↔ decodeHeader c.hdr = .illegal why := by
  refine ⟨fun h => ?_, decode_of_illegal⟩
  cases hd : decodeHeader c.hdr with
  | illegal why' => rw [decode_of_illegal hd] at h; cases h; rfl
  | op o => rw [decode_of_op hd] at h; cases h

theorem illegalHeader_iff_decode {c : Command} : IllegalHeader c.hdr ↔ ∃ why, decode c = .illegal why := by
  simp only [decode_eq_illegal, decodeHeader_eq_illegal]

/-! ### The opcode map (R64) -/

theorem headerOp_and_moveByMask (h : Word) : headerOp (h &&& 0xFFFF00FF#32) = headerOp h := by
  rw [headerOp, BitVec.extractLsb'_and, show (0xFFFF00FF#32).extractLsb' 0 8 = BitVec.allOnes 8 by decide,
    BitVec.and_allOnes, headerOp]

theorem headerRsv_and_moveByMask (h : Word) : headerRsv (h &&& 0xFFFF00FF#32) = headerRsv h := by
  rw [headerRsv, BitVec.extractLsb'_and, show (0xFFFF00FF#32).extractLsb' 16 16 = BitVec.allOnes 16 by decide,
    BitVec.and_allOnes, headerRsv]

/-- A row whose mask keeps every bit is selected by its own header alone (R64). -/
theorem selectedBy_fullMask {m : String} {p h : Word} : (OpRow.mk m p 0xFFFFFFFF#32).selectedBy h = true ↔ h = p := by
  rw [OpRow.selectedBy, beq_iff_eq, show 0xFFFFFFFF#32 = BitVec.allOnes 32 by decide, BitVec.and_allOnes]

/-- MOVE_BY's row is selected by MOVE_BY's headers, with any `N` (R64). -/
theorem selectedBy_moveByMask {m : String} {h : Word} :
    (OpRow.mk m 5#32 0xFFFF00FF#32).selectedBy h = true ↔ ∃ n, h = (Op.moveBy n).header := by
  rw [OpRow.selectedBy, beq_iff_eq]
  show h &&& 0xFFFF00FF#32 = 5#32 ↔ _
  constructor
  · intro e
    have hop : headerOp h = 5 := by rw [← headerOp_and_moveByMask, e]; decide
    have hrsv : headerRsv h = 0 := by rw [← headerRsv_and_moveByMask, e]; decide
    exact ⟨headerN h, by rw [eq_makeHeader hrsv, hop]; simp [Op.header]⟩
  · rintro ⟨n, rfl⟩
    exact (makeHeader_and_moveByMask n 5).trans (by decide)

/-- Only the header of an operation selects a row (R64). -/
theorem exists_header_of_selectedBy {r : OpRow} {h : Word} (hr : r ∈ opcodeMap) (hs : r.selectedBy h = true) :
    ∃ o : Op, h = o.header := by
  simp only [opcodeMap, List.cons_append, List.nil_append, List.mem_cons, List.not_mem_nil, or_false] at hr
  rcases hr with rfl | rfl | rfl | rfl | rfl | rfl
  · exact ⟨.construct, selectedBy_fullMask.1 hs⟩
  · exact ⟨.reg2, selectedBy_fullMask.1 hs⟩
  · exact ⟨.reg4, selectedBy_fullMask.1 hs⟩
  · exact ⟨.setSpeed, selectedBy_fullMask.1 hs⟩
  · obtain ⟨n, hn⟩ := selectedBy_moveByMask.1 hs
    exact ⟨.moveBy n, hn⟩
  · exact ⟨.version, selectedBy_fullMask.1 hs⟩

/-- A MOVE_BY header selects no row but MOVE_BY's. -/
theorem selectedBy_fullMask_moveBy {m : String} {p : Word} (hp : headerOp p ≠ 5) (n : BitVec 8) :
    (OpRow.mk m p 0xFFFFFFFF#32).selectedBy (Op.moveBy n).header = false := by
  rw [Bool.eq_false_iff, ne_eq, selectedBy_fullMask]
  rintro rfl
  exact hp (headerOp_makeHeader n 5)

/-- The header of an operation selects its row alone (R64). -/
theorem filter_selectedBy_header (o : Op) :
    (opcodeMap.filter fun r => r.selectedBy o.header).map OpRow.mnemonic = [o.mnemonic] := by
  cases o with
  | moveBy n =>
    have hrow := selectedBy_moveByMask (m := "MOVE_BY").2 ⟨n, rfl⟩
    simp (disch := decide) [opcodeMap, List.filter_cons, selectedBy_fullMask_moveBy, hrow, Op.mnemonic]
  | _ => decide

/-- Settles O5: the headers that select a row are the operations' headers. -/
theorem opcodeMapSelectsOneRow : Obligations.OpcodeMapSelectsOneRow := by
  refine ⟨fun h o hd => ?_, fun h why hd r hr => ?_⟩
  · rw [eq_header_of_decodeHeader hd]
    exact filter_selectedBy_header o
  · rw [Bool.eq_false_iff]
    intro hs
    obtain ⟨o, rfl⟩ := exists_header_of_selectedBy hr hs
    simp at hd

/-- Settles O6 by evaluating the decoder. -/
theorem specHeaderWordsDecode : Obligations.SpecHeaderWordsDecode := by
  unfold Obligations.SpecHeaderWordsDecode
  decide

end Sys2Proof

namespace Sys2Proof.Machine

/-! ## Accepting a record and the step that does it (R53, R59, R60) -/

theorem accept_of_instr {c : Command} {i : Instr} (h : decode c = .instr i) (s : State) : accept c s = exec i s := by
  simp [accept, h]

theorem accept_of_illegal {c : Command} {why : Illegal} (h : decode c = .illegal why) (s : State) :
    accept c s = .next (s.respondedOnly 7 0) := by
  unfold accept
  rw [h]
  rfl

theorem accept_congr {c c' : Command} (h : decode c' = decode c) (s : State) : accept c' s = accept c s := by
  simp only [accept, h]

/-- A MOVE_BY whose `N` is not `count` fails before it reads a target (R59, R83). -/
theorem accept_moveBy_of_count_ne {c : Command} {n : BitVec 8} {s : State} (h : decodeHeader c.hdr = .op (.moveBy n))
    (hn : n.toNat ≠ s.count.toNat) : accept c s = .next (s.respondedOnly 5 0) := by
  rw [accept_of_instr (decode_of_op h)]
  show execMoveBy _ s = _
  exact if_pos (by simpa using hn)

/-- Settles O3: the records decode alike, and a MOVE_BY with another `N` only responds. -/
theorem ignoredArgumentWordsHaveNoEffect : Obligations.IgnoredArgumentWordsHaveNoEffect := by
  refine ⟨fun c c' o s hh ho h => ?_, fun c c' n s hh hd hn => ?_⟩
  · refine accept_congr (decode_congr hh fun o' ho' => ?_) s
    cases ho.symm.trans ho'
    exact h
  · rw [accept_moveBy_of_count_ne hd hn, accept_moveBy_of_count_ne (hh ▸ hd) hn]

theorem accept_of_illegalHeader {c : Command} (h : IllegalHeader c.hdr) (s : State) :
    accept c s = .next (s.respondedOnly 7 0) := by
  obtain ⟨why, hd⟩ := illegalHeader_iff_decode.1 h
  exact accept_of_illegal hd s

/-- Settles O4: the failing checks of R56 are the cases of R60. -/
theorem illegalHeadersFailWithIllegalCommand : Obligations.IllegalHeadersFailWithIllegalCommand :=
  ⟨fun _ => illegalHeader_iff_decode, fun _ s h => accept_of_illegalHeader h s⟩

/-- The idle step that is offered a record (R53). -/
theorem step_accepts {s : State} {c : Command} {rest : List Command} (hr : s.tick.rst = false) (hb : s.busy = false)
    (ho : s.offered = c :: rest) : step s = accept c (s.afterTick.offering rest) := by
  show stepOnce s = _
  simp [stepOnce, nextAction_accept hr hb ho, perform, ho]

/-- Settles O8: the step is `accept` of the offered record. -/
theorem stepRunsTheDecodedCommand : Obligations.StepRunsTheDecodedCommand := by
  intro s c rest hr hb ho
  have hstep := step_accepts hr hb ho
  exact ⟨hstep, State.afterTick_time s, fun i hi => hstep.trans (accept_of_instr hi _),
    fun hi => hstep.trans (accept_of_illegalHeader hi _)⟩

/-- Four lanes are enough for up to four pin events (R49). -/
theorem pinLanes_eq {es : List Event} (h : (es.filterMap laneOf).length ≤ 4) :
    pinLanes es = es.filterMap laneOf ++ List.replicate (4 - (es.filterMap laneOf).length) .idle := by
  rw [pinLanes, List.take_append, List.take_of_length_le h, List.take_replicate, Nat.min_eq_left (Nat.sub_le _ _)]

theorem SinkFollows.filterMap_laneOf_length_le {s t : State} (h : SinkFollows s t) :
    ((newEvents s t).filterMap laneOf).length ≤ 4 := by
  obtain ⟨evs, rsp, htrace, -, -, hlen, hrsp⟩ := h
  have hnew : newEvents s t = evs ++ rsp := newEvents_append (by rw [htrace, List.append_assoc])
  have hnone : rsp.filterMap laneOf = [] := by
    obtain rfl | ⟨status, data, rfl⟩ := hrsp <;> rfl
  rw [hnew, List.filterMap_append, hnone, List.append_nil]
  exact (List.length_filterMap_le _ _).trans hlen

/-- Settles O49: a step has at most four pin events (O48). -/
theorem portLanesCarryEveryPinEvent : Obligations.PortLanesCarryEveryPinEvent := by
  intro s t h
  have hlen := SinkFollows.filterMap_laneOf_length_le (sinkFollowsTheTrace s t h)
  have heq : (outputs s t).pinEvt = _ := pinLanes_eq hlen
  refine ⟨?_, _, heq⟩
  rw [heq, List.length_append, List.length_replicate]
  omega

/-! ## Lines of text (R62) -/

theorem signedOperand_eq_some {o : AsmOperand} {w : Word} : signedOperand o = some w ↔ o.SignedInRange ∧ o.word = w := by
  by_cases h : o.SignedInRange
  · simp [signedOperand_of_inRange h, h]
  · simp [signedOperand_of_outOfRange h, h]

theorem unsignedOperand_eq_some {o : AsmOperand} {w : Word} :
    unsignedOperand o = some w ↔ o.UnsignedInRange ∧ o.word = w := by
  by_cases h : o.UnsignedInRange
  · simp [unsignedOperand_of_inRange h, h]
  · simp [unsignedOperand_of_outOfRange h, h]

theorem mapM_signedOperand_eq_some {ts : List AsmOperand} {ws : List Word} :
    ts.mapM signedOperand = some ws ↔ (∀ t ∈ ts, t.SignedInRange) ∧ ts.map AsmOperand.word = ws := by
  induction ts generalizing ws with
  | nil => simp
  | cons t ts ih => simp [Option.bind_eq_some_iff, signedOperand_eq_some, ih, and_assoc]

theorem asmCommand_construct {cap : AsmOperand} {i : Instr} :
    asmCommand "CONSTRUCT".toList [cap] = some i ↔ cap.SignedInRange ∧ .construct cap.word = i := by
  simp [asmCommand, signedOperand_eq_some]

theorem asmCommand_reg2 {spr a b : AsmOperand} {i : Instr} :
    asmCommand "REG2".toList [spr, a, b] = some i ↔
      (spr.SignedInRange ∧ a.UnsignedInRange ∧ b.UnsignedInRange) ∧ .reg2 spr.word a.word b.word = i := by
  simp [asmCommand, Option.bind_eq_some_iff, signedOperand_eq_some, unsignedOperand_eq_some, and_assoc]

theorem asmCommand_reg4 {spr a b c d : AsmOperand} {i : Instr} :
    asmCommand "REG4".toList [spr, a, b, c, d] = some i ↔
      (spr.SignedInRange ∧ a.UnsignedInRange ∧ b.UnsignedInRange ∧ c.UnsignedInRange ∧ d.UnsignedInRange) ∧
        .reg4 spr.word a.word b.word c.word d.word = i := by
  simp [asmCommand, Option.bind_eq_some_iff, signedOperand_eq_some, unsignedOperand_eq_some, and_assoc]

theorem asmCommand_setSpeed {motor rpm : AsmOperand} {i : Instr} :
    asmCommand "SET_SPEED".toList [motor, rpm] = some i ↔
      (motor.UnsignedInRange ∧ rpm.SignedInRange) ∧ .setSpeed motor.word rpm.word = i := by
  simp [asmCommand, Option.bind_eq_some_iff, signedOperand_eq_some, unsignedOperand_eq_some, and_assoc]

theorem asmCommand_moveBy {ts : List AsmOperand} {i : Instr} :
    asmCommand "MOVE_BY".toList ts = some i ↔
      (ts.length ≤ 255 ∧ ∀ t ∈ ts, t.SignedInRange) ∧ .moveBy (ts.map AsmOperand.word) = i := by
  simp [asmCommand, mapM_signedOperand_eq_some, and_assoc]

theorem asmCommand_version : asmCommand "VERSION".toList [] = some .version := by
  simp [asmCommand]

/-- A mnemonic and operands that stand for a command are its mnemonic and one operand per argument word of its record, and
the command is well-formed (R62). -/
theorem asmCommand_shape {mnemonic : List Char} {ops : List AsmOperand} {i : Instr} (h : asmCommand mnemonic ops = some i) :
    mnemonic = (asmMnemonic i).toList ∧ ops.length = (encode i).args.length ∧ i.wellFormed = true := by
  have hi := h
  unfold asmCommand at h
  split_ifs at h with hm hm hm hm hm _ hm <;> subst hm
  · split at h
    · obtain ⟨-, rfl⟩ := asmCommand_construct.1 hi; exact ⟨rfl, rfl, rfl⟩
    · cases h
  · split at h
    · obtain ⟨-, rfl⟩ := asmCommand_reg2.1 hi; exact ⟨rfl, rfl, rfl⟩
    · cases h
  · split at h
    · obtain ⟨-, rfl⟩ := asmCommand_reg4.1 hi; exact ⟨rfl, rfl, rfl⟩
    · cases h
  · split at h
    · obtain ⟨-, rfl⟩ := asmCommand_setSpeed.1 hi; exact ⟨rfl, rfl, rfl⟩
    · cases h
  · obtain ⟨⟨hl, -⟩, rfl⟩ := asmCommand_moveBy.1 hi
    exact ⟨rfl, (List.length_map _).symm, by simpa [Instr.wellFormed] using hl⟩
  · split at h
    · cases h; exact ⟨rfl, rfl, rfl⟩
    · cases h

/-- The command of a line is that of some mnemonic and operands. -/
theorem asmCommand_of_assembleLine {line : List Char} {i : Instr} (h : assembleLine line = .command i) :
    ∃ mnemonic ops, asmCommand mnemonic ops = some i := by
  simp only [assembleLine] at h
  split at h
  · cases h
  · split at h
    · cases h
    · split at h
      · cases h
      · next hi => cases h; exact ⟨_, _, hi⟩

/-- Another number of operands makes no command (R62). -/
theorem asmCommand_wrong_count {mnemonic : String} {n : Nat} {ops : List AsmOperand}
    (hm : (mnemonic, n) ∈ [("CONSTRUCT", 1), ("REG2", 3), ("REG4", 5), ("SET_SPEED", 2), ("VERSION", 0)])
    (hn : ops.length ≠ n) : asmCommand mnemonic.toList ops = none := by
  rw [Option.eq_none_iff_forall_ne_some]
  intro i h
  obtain ⟨he, hl, -⟩ := asmCommand_shape h
  rw [String.toList_inj.1 he] at hm
  refine hn (hl.trans ?_)
  cases i with
  | moveBy => simp [asmMnemonic] at hm
  | _ => simpa [asmMnemonic, encode, eq_comm] using hm

/-- The operands of a command, the signed ones of R58 (a) written by `signed` and the others by `unsigned`. -/
def writtenOperands (signed unsigned : Word → AsmOperand) : Instr → List AsmOperand
  | .construct capacity => [signed capacity]
  | .reg2 spr a b => [signed spr, unsigned a, unsigned b]
  | .reg4 spr a b c d => [signed spr, unsigned a, unsigned b, unsigned c, unsigned d]
  | .setSpeed motor rpm => [unsigned motor, signed rpm]
  | .moveBy targets => targets.map signed
  | .version => []

theorem decimalOperands_eq (i : Instr) :
    decimalOperands i = writtenOperands (fun w => .decimal w.toInt) (fun w => .decimal w.toNat) i := by
  cases i <;> rfl

theorem hexadecimalOperands_eq (i : Instr) :
    hexadecimalOperands i = writtenOperands (fun w => .hexadecimal w.toNat) (fun w => .hexadecimal w.toNat) i := by
  cases i <;> rfl

/-- Operands that are read back make the command (R62). -/
theorem asmCommand_writtenOperands {signed unsigned : Word → AsmOperand} (hs : ∀ w, signedOperand (signed w) = some w)
    (hu : ∀ w, unsignedOperand (unsigned w) = some w) {i : Instr} (hi : i.wellFormed = true) :
    asmCommand (asmMnemonic i).toList (writtenOperands signed unsigned i) = some i := by
  cases i with
  | moveBy targets =>
    have hread : ∀ t, (signed t).SignedInRange ∧ (signed t).word = t := fun t => signedOperand_eq_some.1 (hs t)
    have hl : targets.length ≤ 255 := of_decide_eq_true hi
    exact asmCommand_moveBy.2 ⟨⟨by simpa [writtenOperands] using hl, by simp [writtenOperands, hread]⟩,
      by simp [writtenOperands, Function.comp_def, hread]⟩
  | _ => simp [asmMnemonic, writtenOperands, asmCommand, hs, hu]

theorem signedOperand_decimal (w : Word) : signedOperand (.decimal w.toInt) = some w :=
  signedOperand_eq_some.2 ⟨⟨BitVec.le_toInt w, Int.le_sub_one_of_lt BitVec.toInt_lt⟩, AsmOperand.word_decimal_toInt w⟩

theorem unsignedOperand_decimal (w : Word) : unsignedOperand (.decimal w.toNat) = some w := by
  have := w.isLt
  exact unsignedOperand_eq_some.2 ⟨⟨by omega, by omega⟩, AsmOperand.word_decimal_toNat w⟩

theorem signedOperand_hexadecimal (w : Word) : signedOperand (.hexadecimal w.toNat) = some w :=
  signedOperand_eq_some.2 ⟨Nat.le_pred_of_lt w.isLt, AsmOperand.word_hexadecimal_toNat w⟩

theorem unsignedOperand_hexadecimal (w : Word) : unsignedOperand (.hexadecimal w.toNat) = some w :=
  unsignedOperand_eq_some.2 ⟨Nat.le_pred_of_lt w.isLt, AsmOperand.word_hexadecimal_toNat w⟩

theorem asmMnemonic_plain (i : Instr) :
    (∀ c ∈ (asmMnemonic i).toList, Plain c) ∧ (asmMnemonic i).toList ≠ [] :=
  mnemonics_plain _ (by cases i <;> simp [asmMnemonic])

/-! ### Written lines -/

section
variable {mnemonic : String} {ops : List AsmOperand} {tail : List Char} {i : Instr}

theorem assembleLine_lineText_of_some (ht : tail = [] ∨ ∃ comment, tail = ';' :: comment)
    (h : asmCommand mnemonic.toList ops = some i) : assembleLine (lineText mnemonic ops ++ tail) = .command i := by
  obtain ⟨he, -, -⟩ := asmCommand_shape h
  obtain ⟨hm, hne⟩ := asmMnemonic_plain i
  rw [← he] at hm hne
  rw [assembleLine_lineText hm hne ht, h]

theorem assembleLine_lineText_of_none
    (hm : mnemonic ∈ ["CONSTRUCT", "REG2", "REG4", "SET_SPEED", "MOVE_BY", "VERSION"])
    (ht : tail = [] ∨ ∃ comment, tail = ';' :: comment)
    (h : asmCommand mnemonic.toList ops = none) : assembleLine (lineText mnemonic ops ++ tail) = .malformed := by
  obtain ⟨hm, hne⟩ := mnemonics_plain _ hm
  rw [assembleLine_lineText hm hne ht, h]

/-- A written line makes the command `i` exactly where its operands do. -/
theorem assembleLine_isCommandWhen {inRange : Prop}
    (hm : mnemonic ∈ ["CONSTRUCT", "REG2", "REG4", "SET_SPEED", "MOVE_BY", "VERSION"])
    (ht : tail = [] ∨ ∃ comment, tail = ';' :: comment)
    (h : ∀ {j}, asmCommand mnemonic.toList ops = some j ↔ inRange ∧ i = j) :
    (assembleLine (lineText mnemonic ops ++ tail)).IsCommandWhen inRange i :=
  ⟨fun hr => assembleLine_lineText_of_some ht (h.2 ⟨hr, rfl⟩), fun hr =>
    assembleLine_lineText_of_none hm ht (Option.eq_none_iff_forall_ne_some.2 fun _ hj => hr (h.1 hj).1)⟩

end

/-- Settles O7: a written line is its mnemonic and operands, and each mnemonic takes exactly its operands in range. -/
theorem linesAssembleToTheirCommands : Obligations.LinesAssembleToTheirCommands := by
  refine ⟨fun line i h => ?_, fun tail ht => ⟨fun i hi => ⟨?_, ?_⟩, fun _ => ?_, fun _ _ _ => ?_, fun _ _ _ _ _ => ?_,
    fun _ _ => ?_, fun _ => ?_, assembleLine_lineText_of_some ht asmCommand_version, fun mnemonic n ops hm hn => ?_⟩⟩
  · obtain ⟨mnemonic, ops, hi⟩ := asmCommand_of_assembleLine h
    obtain ⟨-, -, hwf⟩ := asmCommand_shape hi
    exact hwf
  · rw [decimalOperands_eq]
    exact assembleLine_lineText_of_some ht
      (asmCommand_writtenOperands signedOperand_decimal unsignedOperand_decimal hi)
  · rw [hexadecimalOperands_eq]
    exact assembleLine_lineText_of_some ht
      (asmCommand_writtenOperands signedOperand_hexadecimal unsignedOperand_hexadecimal hi)
  · exact assembleLine_isCommandWhen (by simp) ht asmCommand_construct
  · exact assembleLine_isCommandWhen (by simp) ht asmCommand_reg2
  · exact assembleLine_isCommandWhen (by simp) ht asmCommand_reg4
  · exact assembleLine_isCommandWhen (by simp) ht asmCommand_setSpeed
  · exact assembleLine_isCommandWhen (by simp) ht asmCommand_moveBy
  · refine assembleLine_lineText_of_none ?_ ht (asmCommand_wrong_count hm hn)
    simp only [List.mem_cons, Prod.mk.injEq, List.not_mem_nil, or_false] at hm ⊢
    tauto

end Sys2Proof.Machine

/-! ## The configuration commands (R67 to R73) -/

namespace Sys2Proof.Machine

/-- A record under an operation's header decodes to that operation with the record's words (R56, R57). -/
theorem decode_of_hdr {c : Command} (o : Op) (h : c.hdr = o.header) : decode c = .instr (operandsOf c o) :=
  decode_of_op (decodeHeader_eq_op.2 h)

/-! ### CONSTRUCT (R67) -/

theorem execConstruct_legal {cap : Word} {s : State} (hpos : 0 < cap.toInt) (hmax : cap.toInt ≤ (s.cfg.maxSlots : Int)) :
    execConstruct cap s = .next ({ s with capacity := cap, count := 0 }.respondedOnly 0 0) :=
  if_neg (by omega)

theorem execConstruct_illegal {cap : Word} {s : State} (h : cap.toInt ≤ 0 ∨ (s.cfg.maxSlots : Int) < cap.toInt) :
    execConstruct cap s = .next (s.respondedOnly 1 0) :=
  if_pos h

/-- Settles O13: the two ranges of the capacity are the two branches of CONSTRUCT. -/
theorem constructMakesAnEmptyBank : Obligations.ConstructMakesAnEmptyBank :=
  ⟨fun _ h => decode_of_hdr .construct h, fun _ _ =>
    ⟨fun hpos hmax => execConstruct_legal hpos hmax, fun h => execConstruct_illegal h⟩⟩

/-! ### Registration (R68 to R70) -/

/-- A registration whose preconditions hold adds its motor (R68). -/
theorem registerMotor_succeeds {m : Slot} {k : Nat} {s : State} (hfree : s.count.toNat < s.capacity.toNat)
    (hspr : 0 < m.spr.toInt) (hfile : s.count.toNat < s.slots.length) :
    registerMotor m m.pins k s = .next (s.withMotor m k) := by
  obtain ⟨t, ht⟩ := registerMotor_completes (ps := m.pins) (k := k) hfree hspr hfile
  rw [ht]
  obtain ⟨hfull, -⟩ | ⟨-, hbad, -⟩ | ⟨-, -, -, rfl⟩ := registerMotor_cases ht
  · omega
  · omega
  · rfl

theorem withMotor_slot {s : State} (hfile : s.count.toNat < s.slots.length) (m : Slot) (k : Nat) :
    (s.withMotor m k).slots[s.count.toNat]? = some m :=
  List.getElem?_set_self hfile

theorem withMotor_slot_ne {s : State} {j : Nat} (hj : j ≠ s.count.toNat) (m : Slot) (k : Nat) :
    (s.withMotor m k).slots[j]? = s.slots[j]? :=
  List.getElem?_set_ne hj.symm

theorem withMotor_slots_length (s : State) (m : Slot) (k : Nat) : (s.withMotor m k).slots.length = s.slots.length :=
  List.length_set

/-- A registration makes the motor's pins outputs and keeps every level (R32, R68). -/
theorem withMotor_pin {s : State} (hs : PinsWf s.pins) (m : Slot) (k : Nat) (p : Word) :
    (s.withMotor m k).pin p =
      if p ∈ m.pins then { mode := .output, level := (s.pin p).level } else s.pin p :=
  pinGet_foldl_sinkConfigured hs m.pins p

/-- Settles O14: REG2 adds its motor, and its errors are those of a registration. -/
theorem reg2RegistersATwoWireMotor : Obligations.Reg2RegistersATwoWireMotor := by
  refine ⟨fun _ h => decode_of_hdr .reg2 h, fun spr pinA pinB s => ⟨fun hfree hspr hfile hpins => ?_,
    registerMotor_full, fun hfree hspr => registerMotor_badCount hfree hspr⟩⟩
  refine ⟨_, _, _, registerMotor_succeeds hfree hspr hfile, withMotor_slot hfile _ _, fun j hj => withMotor_slot_ne hj _ _,
    withMotor_slots_length s _ _, count_succ_toNat hfree, List.append_assoc _ _ _, fun p => ?_,
    rfl, rfl, rfl, rfl, rfl, rfl, rfl⟩
  rw [withMotor_pin hpins]
  simp [Slot.pins, Slot.registered]

/-- Settles O15: REG4 adds its motor, and its errors are those of a registration. -/
theorem reg4RegistersAFourWireMotor : Obligations.Reg4RegistersAFourWireMotor := by
  refine ⟨fun _ h => decode_of_hdr .reg4 h, fun spr pinA pinB pinC pinD s => ⟨fun hfree hspr hfile hpins => ?_,
    registerMotor_full, fun hfree hspr => registerMotor_badCount hfree hspr⟩⟩
  refine ⟨_, registerMotor_succeeds hfree hspr hfile, withMotor_slot hfile _ _, fun j hj => withMotor_slot_ne hj _ _,
    withMotor_slots_length s _ _, count_succ_toNat hfree, List.append_assoc _ _ _, fun p => ?_,
    rfl, rfl, rfl, rfl, rfl, rfl, rfl, rfl⟩
  rw [withMotor_pin hpins]
  simp [Slot.pins, Slot.registered]

/-- A registration that answers only responds with an error, or adds its motor (R68). -/
theorem registerMotor_answers {m : Slot} {k : Nat} {s t : State} (h : registerMotor m m.pins k s = .next t) :
    (∃ status, t = s.respondedOnly status 0) ∨ t = s.withMotor m k := by
  obtain ⟨-, rfl⟩ | ⟨-, -, rfl⟩ | ⟨-, -, -, rfl⟩ := registerMotor_cases h
  · exact .inl ⟨2, rfl⟩
  · exact .inl ⟨3, rfl⟩
  · exact .inr rfl

/-- REG2 and REG4 are registrations of a motor with the operand pins (R69, R70). -/
theorem exec_eq_registerMotor {i : Instr} {pins : List Word} (s : State)
    (hi : (∃ spr a b, i = .reg2 spr a b ∧ pins = [a, b]) ∨ (∃ spr a b c d, i = .reg4 spr a b c d ∧ pins = [a, b, c, d])) :
    ∃ m k, m.pins = pins ∧ exec i s = registerMotor m m.pins k s := by
  obtain ⟨spr, a, b, rfl, rfl⟩ | ⟨spr, a, b, c, d, rfl, rfl⟩ := hi
  · exact ⟨_, 2, rfl, rfl⟩
  · exact ⟨_, 0, rfl, rfl⟩

/-- Settles O43: an error only responds, and a new motor takes slot `count` and configures its own pins. -/
theorem frameOfRegistrations : Obligations.FrameOfRegistrations := by
  intro i s t pins hs h hi
  obtain ⟨m, k, rfl, hreg⟩ := exec_eq_registerMotor s hi
  obtain ⟨status, rfl⟩ | rfl := registerMotor_answers (hreg.symm.trans h)
  · exact ⟨rfl, rfl, rfl, rfl, rfl, rfl, rfl, rfl, fun _ _ => rfl, fun _ _ => rfl, fun _ => rfl⟩
  · refine ⟨rfl, rfl, rfl, rfl, rfl, rfl, rfl, withMotor_slots_length s m k, fun j hj => withMotor_slot_ne hj m k,
      fun p hp => ?_, fun p => ?_⟩
    · rw [withMotor_pin hs, if_neg hp]
    · rw [withMotor_pin hs]
      split <;> rfl

/-! ### SET_SPEED and the interval (R71 to R73) -/

theorem execSetSpeed_unregistered {motor rpm : Word} {s : State} (h : s.count.toNat ≤ motor.toNat) :
    execSetSpeed motor rpm s = .next (s.respondedOnly 6 0) :=
  if_pos h

theorem execSetSpeed_badSpeed {motor rpm : Word} {s : State} (hmotor : motor.toNat < s.count.toNat) (hrpm : rpm.toInt ≤ 0) :
    execSetSpeed motor rpm s = .next (s.respondedOnly 4 0) :=
  (if_neg (by omega)).trans (if_pos hrpm)

theorem execSetSpeed_succeeds {motor rpm : Word} {s : State} {m : Slot} (hmotor : motor.toNat < s.count.toNat)
    (hrpm : 0 < rpm.toInt) (hm : s.slots[motor.toNat]? = some m) :
    execSetSpeed motor rpm s = .next ((s.writeSlot motor.toNat (m.atSpeed rpm)).respondedOnly 0 0) := by
  unfold execSetSpeed
  rw [if_neg (by omega), if_neg (by omega), State.readSlot_eq_some.2 ⟨hmotor, hm⟩]
  rfl

/-- For a positive rpm the interval is the quotient by the signed operand (R58, R71). -/
theorem intervalOf_eq_ediv (spr : Word) {rpm : Word} (hrpm : 0 < rpm.toInt) :
    ((intervalOf spr rpm).toNat : Int) = 60000 / ((spr.toNat : Int) * rpm.toInt) := by
  rw [intervalOf_toNat, toInt_eq_toNat_of_pos hrpm]
  push_cast
  rfl

/-- Settles O16: the three branches of SET_SPEED, and the interval it writes. -/
theorem setSpeedWritesTheInterval : Obligations.SetSpeedWritesTheInterval :=
  ⟨fun _ h => decode_of_hdr .setSpeed h, fun _ _ _ =>
    ⟨fun m hmotor hrpm hm _ => ⟨_, intervalOf_eq_ediv m.spr hrpm, execSetSpeed_succeeds hmotor hrpm hm⟩,
      fun h => execSetSpeed_unregistered h, fun hmotor hrpm => execSetSpeed_badSpeed hmotor hrpm⟩⟩

/-- Settles O17: the interval is the quotient of natural numbers. -/
theorem intervalIsTheExactQuotient : Obligations.IntervalIsTheExactQuotient := by
  intro S R hS _ hR _
  have hpos : 0 < S.toNat * R.toNat := Nat.mul_pos hS hR
  rw [intervalOf_toNat]
  refine ⟨Nat.div_mul_le_self _ _, ?_, Nat.div_le_self _ _⟩
  rw [mul_comm]
  exact Nat.lt_mul_div_succ _ hpos

theorem intervalOf_eq_zero {spr rpm : Word} (h : 60000 < spr.toNat * rpm.toNat) : intervalOf spr rpm = 0 :=
  BitVec.eq_of_toNat_eq ((intervalOf_toNat spr rpm).trans (Nat.div_eq_of_lt h))

/-- With interval 0 the gate holds at every clock sample (R73, R90). -/
theorem stepsAt_of_interval_zero {m : Slot} (hinterval : m.interval = 0) (hleft : m.remaining ≠ 0) (now : Word) :
    m.stepsAt now = true :=
  Slot.stepsAt_iff.2 ⟨hleft, by rw [hinterval]; exact Nat.zero_le _⟩

/-- Settles O29: the gate of a free-running motor never waits. -/
theorem intervalZeroFreeRuns : Obligations.IntervalZeroFreeRuns := by
  refine ⟨fun s m hc hm hinterval hleft => ?_, fun _ _ h => intervalOf_eq_zero h, fun _ _ _ _ _ _ => rfl⟩
  have hleft : m.remaining ≠ 0 := fun h => by simp [h] at hleft
  have heval := evaluate_eq hc hm
  obtain ⟨x, -, hx, hslots⟩ := evaluate_slots heval
  obtain rfl : m = x := Option.some.inj (hm.symm.trans hx)
  rw [evaluated_of (stepsAt_of_interval_zero hinterval hleft s.nowMs)] at hslots
  refine ⟨_, m.stepped s.nowMs, heval, ?_, remaining_sub_one hleft, rfl⟩
  rw [hslots]
  exact List.getElem?_set_self (List.getElem?_eq_some_iff.1 hm).1

/-! ### The frame of the commands that emit no pin event (R67, R71, R83, R108) -/

/-- `m'` is slot `j` after command `i`, where it was `m`: SET_SPEED may change the interval of its motor, MOVE_BY the
direction and the remaining steps of a slot with a target, and nothing else may change (R71, R83). -/
def Slot.FramedBy (i : Instr) (j : Nat) (m m' : Slot) : Prop :=
  m' = { m with direction := m'.direction, interval := m'.interval, remaining := m'.remaining } ∧
  (m'.interval = m.interval ∨ ∃ motor rpm, i = .setSpeed motor rpm ∧ motor.toNat = j) ∧
  ((m'.direction = m.direction ∧ m'.remaining = m.remaining) ∨ ∃ ts, i = .moveBy ts ∧ j < ts.length)

theorem Slot.FramedBy.refl (i : Instr) (j : Nat) (m : Slot) : m.FramedBy i j m := ⟨rfl, .inl rfl, .inl ⟨rfl, rfl⟩⟩

theorem writeSlot_atSpeed_framed {s : State} {motor : Word} {x : Slot} (hx : s.slots[motor.toNat]? = some x) (rpm : Word)
    {j : Nat} {m : Slot} (hm : s.slots[j]? = some m) :
    ∃ m', (s.writeSlot motor.toNat (x.atSpeed rpm)).slots[j]? = some m' ∧ m.FramedBy (.setSpeed motor rpm) j m' := by
  by_cases hij : motor.toNat = j
  · subst hij
    obtain rfl : m = x := Option.some.inj (hm.symm.trans hx)
    exact ⟨m.atSpeed rpm, List.getElem?_set_self (List.getElem?_eq_some_iff.1 hm).1, rfl, .inr ⟨motor, rpm, rfl, rfl⟩,
      .inl ⟨rfl, rfl⟩⟩
  · exact ⟨m, (List.getElem?_set_ne hij).trans hm, .refl _ j m⟩

theorem withMoveTargets_framed {s : State} {ts : List Word} (hfile : ts.length ≤ s.slots.length) {j : Nat} {m : Slot}
    (hm : s.slots[j]? = some m) :
    ∃ m', (s.withMoveTargets ts).slots[j]? = some m' ∧ m.FramedBy (.moveBy ts) j m' := by
  show ∃ m', (withTargets ts s.slots)[j]? = some m' ∧ _
  rw [withTargets_getElem? ts s.slots j hfile, hm]
  cases hj : ts[j]? with
  | none => exact ⟨m, rfl, .refl _ j m⟩
  | some target =>
    exact ⟨m.withTarget target, rfl, rfl, .inl rfl, .inr ⟨ts, rfl, (List.getElem?_eq_some_iff.1 hj).1⟩⟩

/-- The frame of a command that emits no pin event, from `s` to `t`. -/
def SinklessFrame (i : Instr) (s t : State) : Prop :=
  t.cfg = s.cfg ∧ t.time = s.time ∧ t.pins = s.pins ∧ t.offered = s.offered ∧ t.schedule = s.schedule ∧
  t.draws = s.draws ∧
  ((∃ cap, i = .construct cap) ∨ (t.capacity = s.capacity ∧ t.count = s.count)) ∧
  ((∃ ts, i = .moveBy ts) ∨ (t.busy = s.busy ∧ t.scan = s.scan)) ∧
  t.slots.length = s.slots.length ∧
  (∀ (j : Nat) (m : Slot), s.slots[j]? = some m → ∃ m', t.slots[j]? = some m' ∧ m.FramedBy i j m') ∧
  (t.trace = s.trace ∨ ∃ status data, t.trace = s.trace ++ [.respond status data])

theorem SinklessFrame.respondedOnly (i : Instr) (s : State) (status : BitVec 4) (data : Word) :
    SinklessFrame i s (s.respondedOnly status data) :=
  ⟨rfl, rfl, rfl, rfl, rfl, rfl, .inr ⟨rfl, rfl⟩, .inr ⟨rfl, rfl⟩, rfl, fun j m hm => ⟨m, hm, .refl i j m⟩,
    .inr ⟨status, data, rfl⟩⟩

/-- Settles O42, command by command along what each can do. -/
theorem frameOfSinklessCommands : Obligations.FrameOfSinklessCommands := by
  intro i s t h hreg2 hreg4
  show SinklessFrame i s t
  cases i with
  | construct cap =>
    obtain ⟨-, rfl⟩ | ⟨-, rfl⟩ := execConstruct_cases h
    · exact .respondedOnly _ s 1 0
    · exact ⟨rfl, rfl, rfl, rfl, rfl, rfl, .inl ⟨cap, rfl⟩, .inr ⟨rfl, rfl⟩, rfl, fun j m hm => ⟨m, hm, .refl _ j m⟩,
        .inr ⟨0, 0, rfl⟩⟩
  | reg2 spr a b => exact absurd rfl (hreg2 spr a b)
  | reg4 spr a b c d => exact absurd rfl (hreg4 spr a b c d)
  | setSpeed motor rpm =>
    obtain ⟨-, rfl⟩ | ⟨-, -, rfl⟩ | ⟨-, -, x, hx, rfl⟩ := execSetSpeed_cases h
    · exact .respondedOnly _ s 6 0
    · exact .respondedOnly _ s 4 0
    · exact ⟨rfl, rfl, rfl, rfl, rfl, rfl, .inr ⟨rfl, rfl⟩, .inr ⟨rfl, rfl⟩, List.length_set,
        fun j m hm => writeSlot_atSpeed_framed hx rpm hm, .inr ⟨0, 0, rfl⟩⟩
  | moveBy ts =>
    obtain ⟨-, rfl⟩ | ⟨hn, hfile, hmove⟩ := execMoveBy_cases h
    · exact .respondedOnly _ s 5 0
    · rw [← hn] at hfile
      have hlen := withTargets_length ts s.slots hfile
      obtain ⟨-, rfl⟩ | ⟨-, rfl⟩ := hmove
      · exact ⟨rfl, rfl, rfl, rfl, rfl, rfl, .inr ⟨rfl, rfl⟩, .inl ⟨ts, rfl⟩, hlen,
          fun j m hm => withMoveTargets_framed hfile hm, .inr ⟨0, 0, rfl⟩⟩
      · exact ⟨rfl, rfl, rfl, rfl, rfl, rfl, .inr ⟨rfl, rfl⟩, .inl ⟨ts, rfl⟩, hlen,
          fun j m hm => withMoveTargets_framed hfile hm, .inl rfl⟩
  | version => cases h; exact .respondedOnly _ s 0 s.cfg.version

end Sys2Proof.Machine

/-! ## Motion (R83 to R96) -/

namespace Sys2Proof.Machine

/-! ### The gate (R90) -/

theorem gateOpen_iff {now last interval : Word} :
    gateOpen now last interval = true ↔ interval.toNat ≤ (now - last).toNat := by
  simp [gateOpen]

/-- Two clock samples differ by the elapsed time modulo 2^32 (R31). -/
theorem sample_sub_toNat {T₁ T : Nat} (h : T₁ ≤ T) :
    (BitVec.ofNat 32 T - BitVec.ofNat 32 T₁).toNat = (T - T₁) % 2 ^ 32 := by
  simp only [BitVec.toNat_sub, BitVec.toNat_ofNat]
  omega

theorem gateOpen_samples_iff {T₁ T : Nat} (h : T₁ ≤ T) (interval : Word) :
    gateOpen (BitVec.ofNat 32 T) (BitVec.ofNat 32 T₁) interval = true ↔ interval.toNat ≤ (T - T₁) % 2 ^ 32 := by
  rw [gateOpen_iff, sample_sub_toNat h]

/-- Settles O24: the modular difference of two words, and of two clock samples. -/
theorem gateComparesElapsedTimeModulo : Obligations.GateComparesElapsedTimeModulo := by
  refine ⟨fun now last interval => ?_, fun T₁ T interval hle hlt => ?_⟩
  · rw [gateOpen_iff, ← sub_toNat, Int.ofNat_le]
  · rw [gateOpen_samples_iff hle, Nat.mod_eq_of_lt hlt]

/-- Settles O25: a closed gate opens when the rest of the interval has passed, before the modular elapsed time wraps. -/
theorem gateHoldsBackByAtMostTheInterval : Obligations.GateHoldsBackByAtMostTheInterval := by
  intro T₁ T interval hle
  have hlt := interval.isLt
  by_cases hopen : interval.toNat ≤ (T - T₁) % 2 ^ 32
  · exact ⟨0, Nat.zero_le _, (gateOpen_samples_iff hle interval).2 hopen⟩
  · refine ⟨interval.toNat - (T - T₁) % 2 ^ 32, Nat.sub_le _ _, (gateOpen_samples_iff (by omega) interval).2 ?_⟩
    omega

/-! ### The step index (R92) -/

/-- Settles O28: the index one step up or down, and the phases on both sides of the wrap. -/
theorem stepIndexWrapsModuloSpr : Obligations.StepIndexWrapsModuloSpr := by
  refine ⟨fun idx spr h => ⟨nextIndex_forward h, nextIndex_backward h, nextIndex_lt h⟩, fun d => by cases d <;> decide,
    by decide, fun idx spr h hspr => ⟨fun hlast heq => ?_, fun hfirst heq => ?_⟩⟩
  · have hphase := congrArg Fin.val heq
    simp only [phaseOf, nextIndex_forward h, if_pos hlast, Fin.val_add] at hphase
    omega
  · have hphase := congrArg Fin.val heq
    simp only [phaseOf, nextIndex_backward h, hfirst] at hphase
    have : (spr.toNat - 1) % 4 = 3 := hphase
    omega

/-! ### The evaluation of one slot (R87, R90, R91) -/

theorem evaluated_of_waiting {m : Slot} {now : Word} (h : m.stepsAt now = false) : m.evaluated now = m := by
  simp [Slot.evaluated, h]

theorem writes_of_step {m : Slot} {now : Word} (h : m.stepsAt now = true) :
    m.writes now = patternEvents (phaseOf (nextIndex m.direction m.stepIndex m.spr)) m := by
  simp [Slot.writes, h]

theorem writes_of_waiting {m : Slot} {now : Word} (h : m.stepsAt now = false) : m.writes now = [] := by
  simp [Slot.writes, h]

/-- A slot with no steps left does not step (R94). -/
theorem stepsAt_of_finished {m : Slot} (h : m.remaining = 0) (now : Word) : m.stepsAt now = false := by
  simp [Slot.stepsAt, h]

/-- A slot whose gate is closed, or that has no steps left, does not step (R87). -/
theorem stepsAt_of_closed {m : Slot} {now : Word} (h : m.remaining ≠ 0 → gateOpen now m.lastStep m.interval = false) :
    m.stepsAt now = false := by
  by_cases hleft : m.remaining = 0
  · exact stepsAt_of_finished hleft now
  · simp [Slot.stepsAt, h hleft]

/-- Whether a slot steps is read off these three fields and the clock sample (R94). -/
theorem stepsAt_congr {m m' : Slot} (hremaining : m'.remaining = m.remaining) (hlast : m'.lastStep = m.lastStep)
    (hinterval : m'.interval = m.interval) (now : Word) : m'.stepsAt now = m.stepsAt now := by
  simp only [Slot.stepsAt, hremaining, hlast, hinterval]

/-- The fields of a slot that its evaluation may change (R91). -/
theorem evaluated_eq (m : Slot) (now : Word) :
    m.evaluated now = { m with
      stepIndex := (m.evaluated now).stepIndex
      lastStep := (m.evaluated now).lastStep
      remaining := (m.evaluated now).remaining } := by
  unfold Slot.evaluated
  split <;> rfl

/-- Where the evaluation of a slot changes its counter, it stepped the slot. -/
theorem stepsAt_of_remaining_ne {m : Slot} {now : Word} (h : (m.evaluated now).remaining ≠ m.remaining) :
    m.stepsAt now = true := by
  by_contra hwait
  exact h (by rw [evaluated_of_waiting (by simpa using hwait)])

/-- The inversion of an evaluation (R87) for the slot that is known to stand at `scan`. -/
theorem evaluate_cases_at {s t : State} {m : Slot} (h : evaluate s = .next t) (hm : s.slots[s.scan.toNat]? = some m) :
    (s.afterSlot m).allDone = true ∧ t = (s.afterSlot m).endMove.respondedOnly 0 0 ∨
      (s.afterSlot m).allDone = false ∧ t = (s.afterSlot m).scanTo ((s.scan.toNat + 1) % s.count.toNat) := by
  obtain ⟨x, -, hx, hcases⟩ := evaluate_cases h
  obtain rfl : m = x := Option.some.inj (hm.symm.trans hx)
  exact hcases

/-- The two ends of an evaluation (R88, R89): the move completes where no counter is left, else the scan moves on. -/
theorem evaluate_ends {s t : State} {m : Slot} (h : evaluate s = .next t) (hm : s.slots[s.scan.toNat]? = some m) :
    (t.allDone = true ∧ t.busy = false ∧ t.scan = s.scan ∧ t.trace = s.trace ++ m.writes s.nowMs ++ [.respond 0 0]) ∨
      (t.allDone = false ∧ t.busy = s.busy ∧ t.scan.toNat = (s.scan.toNat + 1) % s.count.toNat ∧
        t.trace = s.trace ++ m.writes s.nowMs) := by
  obtain ⟨-, hc, -⟩ := evaluate_slots h
  obtain ⟨hdone, rfl⟩ | ⟨hleft, rfl⟩ := evaluate_cases_at h hm
  · exact .inl ⟨hdone, rfl, rfl, rfl⟩
  · have hlt := Nat.mod_lt (s.scan.toNat + 1) (Nat.zero_lt_of_lt hc)
    exact .inr ⟨hleft, rfl, (BitVec.toNat_ofNat _ _).trans (Nat.mod_eq_of_lt (hlt.trans s.count.isLt)), rfl⟩

theorem evaluate_slots_at {s t : State} {m : Slot} (h : evaluate s = .next t) (hm : s.slots[s.scan.toNat]? = some m) :
    t.slots = s.slots.set s.scan.toNat (m.evaluated s.nowMs) := by
  obtain ⟨-, rfl⟩ | ⟨-, rfl⟩ := evaluate_cases_at h hm <;> rfl

theorem evaluate_scanned {s t : State} {m : Slot} (h : evaluate s = .next t) (hm : s.slots[s.scan.toNat]? = some m) :
    t.slots[s.scan.toNat]? = some (m.evaluated s.nowMs) := by
  rw [evaluate_slots_at h hm]
  exact List.getElem?_set_self (List.getElem?_eq_some_iff.1 hm).1

theorem evaluate_unscanned {s t : State} (h : evaluate s = .next t) {j : Nat} (hj : j ≠ s.scan.toNat) :
    t.slots[j]? = s.slots[j]? := by
  obtain ⟨m, -, -, hslots⟩ := evaluate_slots h
  rw [hslots, List.getElem?_set_ne hj.symm]

/-- The sink after an evaluation is what the slot's writes make of it, and no free value is drawn (R91). -/
theorem evaluate_pins_draws {s t : State} {m : Slot} (h : evaluate s = .next t) (hm : s.slots[s.scan.toNat]? = some m) :
    t.pins = (m.writes s.nowMs).foldl sinkAfter s.pins ∧ t.draws = s.draws := by
  obtain ⟨-, rfl⟩ | ⟨-, rfl⟩ := evaluate_cases_at h hm <;> exact ⟨rfl, rfl⟩

/-- The evaluation of a slot that does not step leaves the state as it was, before the end of the action. -/
theorem afterSlot_of_waiting {s : State} {m : Slot} (hm : s.slots[s.scan.toNat]? = some m)
    (hwait : m.stepsAt s.nowMs = false) : s.afterSlot m = s := by
  have hset : s.slots.set s.scan.toNat m = s.slots := by
    obtain ⟨hlt, rfl⟩ := List.getElem?_eq_some_iff.1 hm
    exact List.set_getElem_self hlt
  simp [State.afterSlot, evaluated_of_waiting hwait, writes_of_waiting hwait, hset]

/-- Settles O27: the scanned slot is evaluated, and then the action ends in one of its two ways. -/
theorem evaluateStepsOneSlot : Obligations.EvaluateStepsOneSlot := by
  intro s m hc hm hindex
  have heval := evaluate_eq hc hm
  obtain ⟨hcfg, htime, hoffered, hschedule, hcount, hcap⟩ := evaluate_environment heval
  obtain ⟨hpins, hdraws⟩ := evaluate_pins_draws heval hm
  refine ⟨_, m.evaluated s.nowMs, m.writes s.nowMs, heval, evaluate_slots_at heval hm, ?_, ?_, hpins, hcfg, hcap, hcount,
    htime, hoffered, hschedule, hdraws⟩
  · have hsteps : m.stepsAt s.nowMs = true ↔ 0 < m.remaining.toNat ∧ m.interval.toNat ≤ (s.nowMs - m.lastStep).toNat := by
      rw [Slot.stepsAt_iff, Nat.pos_iff_ne_zero, ne_eq, ne_eq, BitVec.toNat_eq]
      rfl
    split
    · next hif =>
      have hstep := hsteps.2 hif
      rw [evaluated_of hstep, writes_of_step hstep]
      exact ⟨rfl, nextIndex_emod hindex _, remaining_sub_one (Slot.stepsAt_iff.1 hstep).1, rfl⟩
    · next hif =>
      have hwait : m.stepsAt s.nowMs = false := by simpa using mt hsteps.1 hif
      exact ⟨evaluated_of_waiting hwait, writes_of_waiting hwait⟩
  · obtain ⟨hdone, hend⟩ | ⟨hleft, hmoved⟩ := evaluate_ends heval hm
    · rwa [if_pos (allDone_iff_toNat.1 hdone)]
    · rwa [if_neg fun hall => by simp [allDone_iff_toNat.2 hall] at hleft]

/-- Settles O30: the scanned slot's own fields and the sample say whether it steps, and what it becomes. -/
theorem motorsDoNotDelayEachOther : Obligations.MotorsDoNotDelayEachOther := by
  refine ⟨fun s s' t t' m m' n n' h h' hm hm' hn hn' hremaining hlast hinterval hnow => ?_,
    fun s s' t t' hscan hnow hslot h h' => ?_, fun s t m h hm hdone => ?_⟩
  · obtain rfl := Option.some.inj ((evaluate_scanned h hm).symm.trans hn)
    obtain rfl := Option.some.inj ((evaluate_scanned h' hm').symm.trans hn')
    have hsame := stepsAt_congr hremaining hlast hinterval s.nowMs
    rw [hnow]
    cases hstep : m.stepsAt s.nowMs with
    | true =>
      have hleft := (Slot.stepsAt_iff.1 hstep).1
      rw [evaluated_of hstep, evaluated_of (hsame.trans hstep)]
      exact .inl ⟨remaining_sub_one hleft, remaining_sub_one (hremaining ▸ hleft)⟩
    | false => exact .inr ⟨evaluated_of_waiting hstep, evaluated_of_waiting (hsame.trans hstep)⟩
  · obtain ⟨m, -, hm, -⟩ := evaluate_cases h
    rw [← hscan] at hslot ⊢
    rw [evaluate_scanned h' (hslot.trans (hscan ▸ hm)), hscan, evaluate_scanned h hm, hnow]
  · have hwait := stepsAt_of_finished (BitVec.eq_of_toNat_eq hdone) s.nowMs
    have hstate := afterSlot_of_waiting hm hwait
    obtain ⟨-, rfl⟩ | ⟨-, rfl⟩ := evaluate_cases_at h hm <;> rw [hstate] <;>
      exact ⟨rfl, rfl, by simp [newEvents]⟩

/-- Settles O31: a slot that steps has an open gate, and the gate compares the samples of two times. -/
theorem stepsKeepTheirInterval : Obligations.StepsKeepTheirInterval := by
  intro s t m m' T₁ h hm hm' hstepped hlast hle hlt
  obtain rfl := Option.some.inj ((evaluate_scanned h hm).symm.trans hm')
  have hstep := stepsAt_of_remaining_ne hstepped
  have hgate := (Slot.stepsAt_iff.1 hstep).2
  rw [hlast, State.nowMs, sample_sub_toNat hle, Nat.mod_eq_of_lt hlt] at hgate
  exact ⟨hgate, by rw [evaluated_of hstep]; rfl⟩

/-- Settles O44: an evaluation changes the scanned slot alone, and writes to its pins alone. -/
theorem frameOfEvaluate : Obligations.FrameOfEvaluate := by
  intro s t m hs h hm
  obtain ⟨hcfg, htime, hoffered, hschedule, hcount, hcap⟩ := evaluate_environment h
  obtain ⟨hpins, hdraws⟩ := evaluate_pins_draws h hm
  refine ⟨hcfg, htime, hoffered, hschedule, hdraws, hcap, hcount, ?_, fun j hj => evaluate_unscanned h hj,
    ⟨_, evaluate_scanned h hm, evaluated_eq m _⟩, fun p hp => ?_, fun p => ?_⟩
  · rw [evaluate_slots_at h hm, List.length_set]
  · rw [State.pin, hpins]
    refine pinGet_foldl_of_not_named (fun hc => ?_) (fun v hw => ?_) s.pins
    · obtain ⟨q, -, l, he⟩ := Slot.mem_writes hc
      cases he
    · obtain ⟨q, hq, l, he⟩ := Slot.mem_writes hw
      cases he
      exact hp hq
  · rw [State.pin, hpins]
    refine mode_foldl_of_writes (fun e he => ?_) hs p
    obtain ⟨q, -, l, rfl⟩ := Slot.mem_writes he
    exact ⟨q, l, rfl⟩

/-! ### The busy step (R53, R87, R96) -/

theorem nextAction_evaluate {s : State} (hr : s.tick.rst = false) (hb : s.busy = true) :
    s.nextAction = some .evaluate := by
  simp [State.nextAction, hr, hb]

theorem step_evaluates {s : State} (hr : s.tick.rst = false) (hb : s.busy = true) : step s = evaluate s.afterTick := by
  show stepOnce s = _
  simp [stepOnce, nextAction_evaluate hr hb, perform]

/-- Settles O9: the next action of a busy block is Evaluate, which leaves the offered commands alone. -/
theorem busyBlockEvaluatesAndAcceptsNothing : Obligations.BusyBlockEvaluatesAndAcceptsNothing := by
  intro s hr hb
  have hstep := step_evaluates hr hb
  refine ⟨hstep, fun t h => ?_⟩
  obtain ⟨-, -, hoffered, -⟩ := evaluate_environment (hstep.symm.trans h)
  rw [hoffered, State.afterTick_offered]

/-- Settles O33: an evaluation clears `busy` only where it completes the move. -/
theorem moveEndsOnlyByCompletionOrReset : Obligations.MoveEndsOnlyByCompletionOrReset := by
  intro s t hb h hend
  obtain ⟨hr, -⟩ | ⟨-, -, he⟩ | ⟨-, hidle, -⟩ | ⟨-, hidle, -⟩ := step_cases h
  · exact .inl hr
  · obtain ⟨m, -, hm, -⟩ := evaluate_cases he
    obtain ⟨hdone, -, -, htrace⟩ | ⟨-, hbusy, -⟩ := evaluate_ends he hm
    · exact .inr ⟨State.allDone_iff.1 hdone, htrace ▸ List.getLast?_concat⟩
    · simp [hbusy, hb] at hend
  · simp [hb] at hidle
  · simp [hb] at hidle

/-! ### MOVE_BY (R83 to R85) -/

/-- MOVE_BY with one target per motor and no step to take (R85). -/
theorem execMoveBy_done {ts : List Word} {s : State} (hn : ts.length = s.count.toNat)
    (hfile : s.count.toNat ≤ s.slots.length) (hzero : ∀ target ∈ ts, target.toInt = 0) :
    execMoveBy ts s = .next ((s.withMoveTargets ts).respondedOnly 0 0) := by
  unfold execMoveBy
  rw [if_neg (by simpa using hn), if_neg (by omega)]
  exact if_pos ((allDone_withTargets hn hfile).2 hzero)

/-- MOVE_BY with one target per motor that starts a move (R83). -/
theorem execMoveBy_starts {ts : List Word} {s : State} (hn : ts.length = s.count.toNat)
    (hfile : s.count.toNat ≤ s.slots.length) (hsteps : ¬ ∀ target ∈ ts, target.toInt = 0) :
    execMoveBy ts s = .next { s.withMoveTargets ts with busy := true, scan := 0 } := by
  unfold execMoveBy
  rw [if_neg (by simpa using hn), if_neg (by omega)]
  exact if_neg (mt (allDone_withTargets hn hfile).1 hsteps)

/-- Target `k` goes to slot `k` (R83). -/
theorem withMoveTargets_target {s : State} {ts : List Word} (hfile : ts.length ≤ s.slots.length) {k : Nat} {m : Slot}
    {target : Word} (hm : s.slots[k]? = some m) (ht : ts[k]? = some target) :
    (s.withMoveTargets ts).slots[k]? = some (m.withTarget target) := by
  show (withTargets ts s.slots)[k]? = _
  rw [withTargets_getElem? ts s.slots k hfile, ht, hm]
  rfl

theorem withMoveTargets_beyond {s : State} {ts : List Word} (hfile : ts.length ≤ s.slots.length) {k : Nat}
    (hk : ts.length ≤ k) : (s.withMoveTargets ts).slots[k]? = s.slots[k]? := by
  show (withTargets ts s.slots)[k]? = _
  rw [withTargets_getElem? ts s.slots k hfile, List.getElem?_eq_none hk]

/-- Settles O19: the setup loop writes the slots with a target, and the two endings of MOVE_BY. -/
theorem moveBySetsUpTheMove : Obligations.MoveBySetsUpTheMove := by
  refine ⟨fun c n h => decode_of_hdr (.moveBy n) h, fun ts s => ⟨fun hn hfile => ?_, fun hn => if_pos hn⟩⟩
  have hfile' : ts.length ≤ s.slots.length := hn ▸ hfile
  have htarget : ∀ (k : Nat) (m : Slot) (target : Word), s.slots[k]? = some m → ts[k]? = some target →
      ∃ w : Word, (w.toNat : Int) = |target.toInt| ∧
        (s.withMoveTargets ts).slots[k]? = some { m with
          direction := if target.toInt > 0 then .forward else if target.toInt < 0 then .backward else m.direction
          remaining := w } := fun k m target hm ht =>
    ⟨absWord target.toInt, by rw [absWord_toNat, Int.natCast_natAbs], withMoveTargets_target hfile' hm ht⟩
  have hbeyond := fun k => withMoveTargets_beyond (k := k) hfile'
  have hlen : (s.withMoveTargets ts).slots.length = s.slots.length := withTargets_length ts s.slots hfile'
  by_cases hzero : ∀ target ∈ ts, target.toInt = 0
  · refine ⟨_, execMoveBy_done hn hfile hzero, htarget, hbeyond, hlen, ?_, rfl, rfl, rfl, rfl, rfl, rfl, rfl, rfl⟩
    rw [if_pos hzero]
    exact ⟨rfl, rfl, rfl⟩
  · refine ⟨_, execMoveBy_starts hn hfile hzero, htarget, hbeyond, hlen, ?_, rfl, rfl, rfl, rfl, rfl, rfl, rfl, rfl⟩
    rw [if_neg hzero]
    exact ⟨rfl, rfl, rfl⟩

/-! ### A move as a sequence of evaluations (R86, R93, R96) -/

/-- One more evaluation of a busy block (R86, R87). -/
theorem evaluations_cons {s t : State} {a : Nat} (hb : s.busy = true) (h : evaluate (s.later a) = .next t)
    (advances : List Nat) : evaluations (a :: advances) s = evaluations advances t := by
  rw [evaluations, if_pos hb, h]

/-- What each evaluation of a busy block keeps, a sequence of them keeps. -/
theorem evaluations_keep {P : State → Prop}
    (keep : ∀ {s t : State} (a : Nat), P s → s.busy = true → evaluate (s.later a) = .next t → P t)
    {advances : List Nat} {s u : State} (hs : P s) (h : evaluations advances s = .next u) : P u := by
  induction advances generalizing s with
  | nil => cases h; exact hs
  | cons a advances ih =>
    rw [evaluations] at h
    split at h
    · next hb =>
      split at h
      · next t ht => exact ih (keep a hs hb ht) h
      · cases h
      · cases h
    · cases h; exact hs

/-- A sequence of evaluations that ends idle has completed its move: no counter is left (R89). -/
theorem evaluations_allDone {advances : List Nat} {s u : State} (hs : s.busy = false → s.allDone = true)
    (h : evaluations advances s = .next u) (hend : u.busy = false) : u.allDone = true := by
  refine evaluations_keep (P := fun x => x.busy = false → x.allDone = true) (fun a _ hb he hidle => ?_) hs h hend
  obtain ⟨-, -, hdone⟩ | ⟨hsame, -⟩ := evaluate_busy he
  · exact hdone
  · rw [hidle] at hsame
    exact absurd hsame (by simp [hb])

theorem evaluations_count {advances : List Nat} {s u : State} (h : evaluations advances s = .next u) :
    u.count = s.count := by
  refine evaluations_keep (P := fun x => x.count = s.count) (fun a hx _ he => ?_) rfl h
  obtain ⟨-, -, -, -, hcount, -⟩ := evaluate_environment he
  exact hcount.trans hx

/-- What a step in a direction adds to the index (R22, R91). -/
def Direction.sign (d : Direction) : Int := if d = .forward then 1 else -1

/-- The steps that a slot has left, signed by its direction (R22, R27). -/
def Slot.stepsLeft (m : Slot) : Int := m.direction.sign * m.remaining.toNat

/-- The index at which a slot arrives with the steps that it has left (R93). -/
def Slot.destination (m : Slot) : Int := (m.stepIndex.toNat + m.stepsLeft) % m.spr.toNat

/-- The steps left after the setup of a move are the target (R84). -/
theorem stepsLeft_withTarget (m : Slot) (target : Word) : (m.withTarget target).stepsLeft = target.toInt := by
  have habs : (m.withTarget target).remaining.toNat = target.toInt.natAbs := absWord_toNat target
  have hdir : (m.withTarget target).direction = m.direction.afterTarget target.toInt := rfl
  rw [Slot.stepsLeft, habs, hdir, Direction.afterTarget]
  split
  · rw [show Direction.sign .forward = 1 from rfl]
    omega
  · split
    · rw [show Direction.sign .backward = -1 from rfl]
      omega
    · have hzero : target.toInt = 0 := by omega
      simp [hzero]

/-- A slot with no steps left is at its destination. -/
theorem destination_of_finished {m : Slot} (hindex : m.stepIndex.toNat < m.spr.toNat) (hdone : m.remaining = 0) :
    m.destination = m.stepIndex.toNat := by
  have hleft : m.stepsLeft = 0 := by simp [Slot.stepsLeft, hdone]
  rw [Slot.destination, hleft, add_zero]
  exact Int.emod_eq_of_lt (by omega) (by omega)

/-- A step moves the index and the steps left against each other, so the destination stays (R91). -/
theorem destination_stepped {m : Slot} (hindex : m.stepIndex.toNat < m.spr.toNat) (hleft : m.remaining ≠ 0) (now : Word) :
    (m.stepped now).destination = m.destination := by
  have hnext : ((m.stepped now).stepIndex.toNat : Int) = (m.stepIndex.toNat + m.direction.sign) % m.spr.toNat :=
    nextIndex_emod hindex m.direction
  have hrest : (m.stepped now).stepsLeft = m.stepsLeft - m.direction.sign := by
    rw [Slot.stepsLeft, Slot.stepsLeft, ← remaining_sub_one hleft, Slot.stepped_direction, Slot.stepped_remaining]
    push_cast
    ring
  rw [Slot.destination, hnext, hrest, Slot.stepped_spr, Int.emod_add_emod, add_add_sub_cancel, Slot.destination]

/-- `m'` is the slot `m` some evaluations later in the same move (R93): it goes the same way to the same destination, and
a motor that has finished stays as it is. -/
structure Slot.MovesTo (m m' : Slot) : Prop where
  indexInRange : m'.stepIndex.toNat < m'.spr.toNat
  direction : m'.direction = m.direction
  destination : m'.destination = m.destination
  idle : m.remaining = 0 → m' = m

theorem Slot.MovesTo.refl {m : Slot} (h : m.stepIndex.toNat < m.spr.toNat) : m.MovesTo m := ⟨h, rfl, rfl, fun _ => rfl⟩

theorem Slot.MovesTo.evaluated {m m' : Slot} (h : m.MovesTo m') (now : Word) : m.MovesTo (m'.evaluated now) := by
  cases hstep : m'.stepsAt now with
  | false => rwa [evaluated_of_waiting hstep]
  | true =>
    have hleft := (Slot.stepsAt_iff.1 hstep).1
    rw [evaluated_of hstep]
    exact ⟨nextIndex_lt h.indexInRange _, h.direction,
      (destination_stepped h.indexInRange hleft now).trans h.destination, fun hdone => absurd (h.idle hdone ▸ hdone) hleft⟩

theorem evaluations_slot {advances : List Nat} {s u : State} (h : evaluations advances s = .next u) {k : Nat} {m : Slot}
    (hm : s.slots[k]? = some m) (hindex : m.stepIndex.toNat < m.spr.toNat) :
    ∃ m', u.slots[k]? = some m' ∧ m.MovesTo m' := by
  refine evaluations_keep (P := fun x => ∃ m', x.slots[k]? = some m' ∧ m.MovesTo m') (fun {x y} a hx _ he => ?_)
    ⟨m, hm, .refl hindex⟩ h
  obtain ⟨m', hm', hmoves⟩ := hx
  by_cases hk : k = (x.later a).scan.toNat
  · subst hk
    exact ⟨_, evaluate_scanned he hm', hmoves.evaluated _⟩
  · exact ⟨m', (evaluate_unscanned he hk).trans hm', hmoves⟩

/-- The state that MOVE_BY answers when it has one target per motor: its targets are set up, and where it is idle it is
done (R83, R85). -/
theorem execMoveBy_answers {ts : List Word} {s t : State} (hn : ts.length = s.count.toNat) (h : execMoveBy ts s = .next t) :
    ts.length ≤ s.slots.length ∧ t.slots = (s.withMoveTargets ts).slots ∧ t.count = s.count ∧
      (t.busy = false → t.allDone = true) := by
  obtain ⟨hne, -⟩ | ⟨-, hfile, ⟨hdone, rfl⟩ | ⟨-, rfl⟩⟩ := execMoveBy_cases h
  · exact absurd hn hne
  · exact ⟨hn ▸ hfile, rfl, rfl, fun _ => hdone⟩
  · exact ⟨hn ▸ hfile, rfl, rfl, fun hidle => by cases hidle⟩

/-- Settles O32: the setup gives each motor its target as the steps left, the evaluations keep its destination, and in the
end no steps are left. -/
theorem completedMoveDisplacesByTheTarget : Obligations.CompletedMoveDisplacesByTheTarget := by
  intro s t u ts advances hs _ hn ht hu hend k m target hm htarget
  obtain ⟨hfile, hslots, hcount, hidle⟩ := execMoveBy_answers hn ht
  have hk : k < s.count.toNat := hn ▸ (List.getElem?_eq_some_iff.1 htarget).1
  obtain ⟨-, hindex, -, -⟩ := hs.slotsLegal m (State.mem_registered.2 ⟨k, hk, hm⟩)
  have hset : t.slots[k]? = some (m.withTarget target) := hslots ▸ withMoveTargets_target hfile hm htarget
  obtain ⟨m', hm', hmoves⟩ := evaluations_slot hu hset hindex
  have hdone : m'.remaining = 0 := State.allDone_iff.1 (evaluations_allDone hidle hu hend) m'
    (State.mem_registered.2 ⟨k, by rwa [evaluations_count hu, hcount], hm'⟩)
  have hdir : m'.direction = m.direction.afterTarget target.toInt := hmoves.direction
  refine ⟨m', hm', ?_, hdone, fun hpos => ?_, fun hneg => ?_, fun hzero => ?_⟩
  · rw [← destination_of_finished hmoves.indexInRange hdone, hmoves.destination, Slot.destination, stepsLeft_withTarget]
    rfl
  · rw [hdir, Direction.afterTarget, if_pos hpos]
  · rw [hdir, Direction.afterTarget, if_neg (by omega), if_pos hneg]
  · rw [hmoves.idle ((absWord_eq_zero target).2 hzero)]
    simp [Slot.withTarget, Direction.afterTarget, hzero]

/-- Every active slot of the block waits on its gate (R132). -/
def State.AllWait (s : State) : Prop :=
  ∀ m ∈ s.registered, m.remaining ≠ 0 → gateOpen s.nowMs m.lastStep m.interval = false

/-- The evaluation of a slot of a running move in which all wait moves the scan on and does nothing else (R88, R96). -/
theorem evaluate_of_allWait {s : State} (hs : s.Inv) (hb : s.busy = true) (hwait : s.AllWait) :
    evaluate s = .next (s.scanTo ((s.scan.toNat + 1) % s.count.toNat)) := by
  have hc := hs.scanRegistered hb
  have hfile : s.count.toNat ≤ s.slots.length :=
    hs.fileSize ▸ hs.countLeCapacity.trans hs.capacityLeMaxSlots
  obtain ⟨m, hm⟩ : ∃ m, s.slots[s.scan.toNat]? = some m := ⟨_, List.getElem?_eq_getElem (hc.trans_le hfile)⟩
  have hstate := afterSlot_of_waiting hm (stepsAt_of_closed (hwait m (State.mem_registered.2 ⟨_, hc, hm⟩)))
  rw [evaluate_eq hc hm, hstate, finishEvaluation, if_neg (by simp [hs.busyActive hb])]

/-- Settles O34, by induction on the number of evaluations: each only moves the scan on. -/
theorem stalledClockHangsTheMove : Obligations.StalledClockHangsTheMove := by
  intro s n hs hb hwait
  induction n generalizing s with
  | zero => exact ⟨s, rfl, hb, rfl, rfl, rfl, rfl⟩
  | succ n ih =>
    have heval := evaluate_of_allWait hs hb hwait
    rw [List.replicate_succ, evaluations_cons hb (a := 0) heval]
    exact ih _ (evaluate_keeps_inv hs hb heval) hb hwait

end Sys2Proof.Machine

/-! ## The pattern driver (R98 to R106) -/

namespace Sys2Proof.Machine

/-! ### The levels of a pattern (R99 to R104) -/

/-- The levels that a phase gives the pins of a wiring, in pin order: a row of TWO or of FOUR (R100, R101). -/
def patternLevels (ph : Fin 4) : Wiring → List Level
  | .twoWire => [level (tableTwo ph).1, level (tableTwo ph).2]
  | .fourWire =>
    [level (tableFour ph).1, level (tableFour ph).2.1, level (tableFour ph).2.2.1, level (tableFour ph).2.2.2]

/-- A pattern writes the levels of its phase and wiring to the slot's pins, pin by pin (R99, R102). -/
theorem patternEvents_eq_zipWith (ph : Fin 4) (m : Slot) :
    patternEvents ph m = List.zipWith Event.sinkWrite m.pins (patternLevels ph m.wiring) := by
  unfold patternEvents Slot.pins
  cases m.wiring <;> rfl

/-- Settles O37: neither the pins nor the levels of a pattern come from another field. -/
theorem patternIsPure : Obligations.PatternIsPure := by
  intro ph m m' hwiring hpins
  rw [patternEvents_eq_zipWith, patternEvents_eq_zipWith, hwiring, hpins]

theorem pins_of_twoWire {m : Slot} (hw : m.wiring = .twoWire) : m.pins = [m.pinA, m.pinB] := by
  rw [Slot.pins, hw]

theorem pins_of_fourWire {m : Slot} (hw : m.wiring = .fourWire) : m.pins = [m.pinA, m.pinB, m.pinC, m.pinD] := by
  rw [Slot.pins, hw]

theorem emitStepPattern_trace (ph : Fin 4) (m : Slot) (s : State) :
    (emitStepPattern ph m s).trace = s.trace ++ patternEvents ph m :=
  State.emitAll_trace s _

/-- Settles O36: for each wiring the rows of its table, and the frame of the events of a pattern. -/
theorem patternTablesDriveThePins : Obligations.PatternTablesDriveThePins := by
  refine fun m s => ⟨fun hw => ?_, fun hw => ?_, fun ph => ?_⟩
  · simp only [emitStepPattern_trace, patternEvents_eq_zipWith, pins_of_twoWire hw, hw]
    exact ⟨rfl, rfl, rfl, rfl⟩
  · simp only [emitStepPattern_trace, patternEvents_eq_zipWith, pins_of_fourWire hw, hw]
    exact ⟨rfl, rfl, rfl, rfl⟩
  · simp [emitStepPattern]

/-! ### The order of the phases (R92, R104) -/

/-- A Forward step goes up one phase, also where the index wraps at a multiple of 4. -/
theorem phaseOf_nextIndex_forward {idx spr : Word} (h : idx.toNat < spr.toNat)
    (hwrap : spr.toNat % 4 = 0 ∨ idx.toNat + 1 ≠ spr.toNat) :
    phaseOf (nextIndex .forward idx spr) = phaseOf idx + 1 := by
  apply Fin.ext
  simp only [phaseOf, nextIndex_forward h, Fin.val_add]
  split <;> omega

/-- A Backward step goes down one phase, also where the index wraps at a multiple of 4. -/
theorem phaseOf_nextIndex_backward {idx spr : Word} (h : idx.toNat < spr.toNat)
    (hwrap : spr.toNat % 4 = 0 ∨ idx.toNat ≠ 0) :
    phaseOf (nextIndex .backward idx spr) = phaseOf idx - 1 := by
  apply Fin.ext
  simp only [phaseOf, nextIndex_backward h, Fin.sub_def]
  split <;> omega

/-- Settles O38: the four rows of the tables are compared one by one, and the index moves by one modulo `spr`. -/
theorem patternTableStructure : Obligations.PatternTableStructure :=
  ⟨by decide, fun _ _ h hwrap => phaseOf_nextIndex_forward h hwrap, fun _ _ h hwrap => phaseOf_nextIndex_backward h hwrap⟩

/-! ### The sink after a pattern (R32, R105, R138) -/

/-- Of the writes to a pin, also several, the last one gives its level; none changes its mode. -/
theorem pinGet_foldl_of_last_write {l : List (Nat × PinState)} (hl : PinsWf l) {before after : List Event} {p : Word}
    {v : Level} (hwrites : ∀ e ∈ before ++ [Event.sinkWrite p v] ++ after, ∃ q w, e = .sinkWrite q w)
    (hlast : ∀ w, .sinkWrite p w ∉ after) :
    pinGet ((before ++ [Event.sinkWrite p v] ++ after).foldl sinkAfter l) p.toNat =
      { mode := (pinGet l p.toNat).mode, level := .driven v } := by
  have hbefore : ∀ e ∈ before, ∃ q w, e = .sinkWrite q w := fun e he => hwrites e (by simp [he])
  have hconf : .sinkConfigure p ∉ after := fun hc => by
    obtain ⟨q, w, he⟩ := hwrites _ (List.mem_append_right _ hc)
    cases he
  rw [List.foldl_append, pinGet_foldl_of_not_named hconf hlast, List.foldl_append]
  show pinGet (sinkWritten (before.foldl sinkAfter l) p v) p.toNat = _
  rw [pinGet_sinkWritten (foldl_sinkAfter_wf hl before), if_pos rfl, mode_foldl_of_writes hbefore hl]

theorem patternEvents_writes {ph : Fin 4} {m : Slot} : ∀ e ∈ patternEvents ph m, ∃ p v, e = .sinkWrite p v := by
  intro e he
  obtain ⟨p, -, v, rfl⟩ := mem_patternEvents he
  exact ⟨p, v, rfl⟩

theorem emitStepPattern_pin (ph : Fin 4) (m : Slot) (s : State) (p : Word) :
    (emitStepPattern ph m s).pin p = pinGet ((patternEvents ph m).foldl sinkAfter s.pins) p.toNat := by
  rw [State.pin, emitStepPattern, State.emitAll_pins]

/-- Settles O40: the sink takes the writes of a pattern in order, and a pattern holds nothing but writes. -/
theorem lastWrittenLevelWins : Obligations.LastWrittenLevelWins := by
  refine fun s m ph hs => ⟨emitStepPattern_trace ph m s, fun before after p v hsplit hlast => ?_, fun p hp => ?_⟩
  · rw [emitStepPattern_pin, hsplit]
    exact pinGet_foldl_of_last_write hs (hsplit ▸ patternEvents_writes) hlast
  · rw [emitStepPattern_pin]
    refine pinGet_foldl_of_not_named (fun hc => ?_) hp s.pins
    obtain ⟨q, w, he⟩ := patternEvents_writes _ hc
    cases he

/-! ### No level is driven by a command (R106, R136) -/

theorem AcceptEffect.pin_level {c : Command} {s t : State} (h : AcceptEffect c s t) (hs : PinsWf s.pins) (p : Word) :
    (t.pin p).level = (s.pin p).level := by
  cases h with
  | registered =>
    rw [withMotor_pin hs]
    split <;> rfl
  | answered | constructed | spedUp | moveDone | moveStarted => rfl

/-- Settles O41: only a registration reaches the sink, and it sets modes alone. -/
theorem commandsDriveNoLevel : Obligations.CommandsDriveNoLevel := fun _ _ _ hs h p => (accept_effect h).pin_level hs p

end Sys2Proof.Machine

/-! ## VERSION (R107, R108) -/

namespace Sys2Proof.Machine

/-- VERSION is a bare success response that carries the parameter (R107, R108). -/
theorem exec_version (s : State) : exec .version s = .next (s.respondedOnly 0 s.cfg.version) :=
  succeed_eq s.cfg.version s

/-- Settles O18: the header is VERSION's own, and a success response changes the trace alone. -/
theorem versionReportsTheParameter : Obligations.VersionReportsTheParameter :=
  ⟨fun _ h => decode_of_hdr .version h, exec_version⟩

end Sys2Proof.Machine

/-! ## Errors and responses (R109 to R123) -/

namespace Sys2Proof.Machine

/-! ### The error catalogue (R110, R112) -/

/-- A registration raises the errors of the catalogue, in its order; they depend on the step count alone (R68). -/
theorem registerMotor_of_error {m : Slot} {ps : List Word} {k : Nat} {s : State} {e : Error}
    (h : errorOf s (.instr (.reg2 m.spr m.pinA m.pinB)) = some e) :
    registerMotor m ps k s = .next (s.respondedOnly e.code 0) := by
  simp only [errorOf] at h
  split at h
  · next hfull => cases h; exact registerMotor_full hfull
  · next hfree =>
    obtain ⟨hspr, ⟨⟩⟩ := Option.ite_none_right_eq_some.1 h
    exact registerMotor_badCount (by omega) hspr

theorem execSetSpeed_of_error {motor rpm : Word} {s : State} {e : Error}
    (h : errorOf s (.instr (.setSpeed motor rpm)) = some e) :
    execSetSpeed motor rpm s = .next (s.respondedOnly e.code 0) := by
  simp only [errorOf] at h
  split at h
  · next hmotor => cases h; exact execSetSpeed_unregistered hmotor
  · next hmotor =>
    obtain ⟨hrpm, ⟨⟩⟩ := Option.ite_none_right_eq_some.1 h
    exact execSetSpeed_badSpeed (by omega) hrpm

/-- A command to which an error of the catalogue applies does `fail` with it and nothing else (R110, R111). -/
theorem exec_of_error {i : Instr} {s : State} {e : Error} (h : errorOf s (.instr i) = some e) :
    exec i s = .next (s.respondedOnly e.code 0) := by
  cases i with
  | construct cap =>
    obtain ⟨hcap, ⟨⟩⟩ := Option.ite_none_right_eq_some.1 h
    exact execConstruct_illegal hcap
  | reg2 => exact registerMotor_of_error h
  | reg4 => exact registerMotor_of_error h
  | setSpeed => exact execSetSpeed_of_error h
  | moveBy ts =>
    obtain ⟨hn, ⟨⟩⟩ := Option.ite_none_right_eq_some.1 h
    exact if_pos hn
  | version => cases h

theorem accept_of_error {c : Command} {s : State} {e : Error} (h : errorOf s (decode c) = some e) :
    accept c s = .next (s.respondedOnly e.code 0) := by
  cases hd : decode c with
  | illegal why =>
    rw [hd] at h
    cases h
    exact accept_of_illegal hd s
  | instr i => rw [accept_of_instr hd, exec_of_error (hd ▸ h)]

/-! ### Responses (R109, R111) -/

/-- The only response among events that end with one is that one. -/
theorem eq_of_respond_mem {evs : List Event} (hnone : responseOf evs = none) {st st' : BitVec 4} {d d' : Word}
    (h : .respond st d ∈ evs ++ [.respond st' d']) : st = st' ∧ d = d' := by
  obtain h | h := List.mem_append.1 h
  · exact absurd h (not_mem_of_responseOf hnone st d)
  · simpa using h

/-- A response to an accepted record reports the catalogue's error and is all that happened, or it reports none where the
catalogue gives none (R110, R111). -/
theorem accept_response {c : Command} {s t : State} {st : BitVec 4} {d : Word} (h : accept c s = .next t)
    (hr : .respond st d ∈ newEvents s t) :
    (∃ e, errorOf s (decode c) = some e ∧ t = s.respondedOnly st 0 ∧ d = 0) ∨ (errorOf s (decode c) = none ∧ st = 0) := by
  obtain ⟨e, he, rfl⟩ | ⟨hnone, -, -, ⟨evs, d', htrace, hevs, -⟩ | ⟨htrace, -⟩⟩ := accept_cases h
  · rw [newEvents_respondedOnly] at hr
    obtain ⟨rfl, rfl⟩ := eq_of_respond_mem (evs := []) rfl hr
    exact .inl ⟨e, he, rfl, rfl⟩
  · rw [newEvents_append (htrace.trans (List.append_assoc _ _ _))] at hr
    exact .inr ⟨hnone, (eq_of_respond_mem hevs hr).1⟩
  · rw [newEvents_append (htrace.trans (List.append_nil _).symm)] at hr
    cases hr

/-- An evaluation responds with no error: a running move raises none (R110). -/
theorem evaluate_response {s t : State} {st : BitVec 4} {d : Word} (h : evaluate s = .next t)
    (hr : .respond st d ∈ newEvents s t) : st = 0 := by
  obtain ⟨evs, hevs, ⟨-, htrace⟩ | ⟨-, htrace⟩⟩ := evaluate_events h
  · rw [newEvents_append (htrace.trans (List.append_assoc _ _ _))] at hr
    exact (eq_of_respond_mem hevs hr).1
  · rw [newEvents_append htrace] at hr
    exact absurd hr (not_mem_of_responseOf hevs st d)

theorem nextAction_reset {s : State} (hr : s.tick.rst = true) : s.nextAction = some .reset := if_pos hr

/-- Settles O20: each command fails where the catalogue says so, and every other response reports no error. -/
theorem errorsFollowTheCatalogue : Obligations.ErrorsFollowTheCatalogue := by
  refine ⟨fun _ _ _ h => accept_of_error h, fun c s t st d hnone h hr => ?_, fun _ _ h _ _ hr => evaluate_response h hr,
    fun _ hr => nextAction_reset hr⟩
  obtain ⟨e, he, -⟩ | ⟨-, hst⟩ := accept_response h hr
  · simp [hnone] at he
  · exact hst

/-- Settles O21: the catalogue's errors are the only responses with a status other than 0. -/
theorem errorsAreAllOrNothing : Obligations.ErrorsAreAllOrNothing := by
  intro c s t st d h hr hne
  obtain ⟨-, -, ht, hd⟩ | ⟨-, hst⟩ := accept_response h hr
  · exact ⟨ht, hd⟩
  · exact absurd hst hne

/-- Settles O22: the endings of an accepted command, and those of an evaluation. -/
theorem oneResponsePerCommand : Obligations.OneResponsePerCommand := by
  refine ⟨fun c s t hb h => ?_, fun s t hb h => ?_⟩
  · obtain ⟨e, -, rfl⟩ | ⟨-, -, -, ⟨evs, d, htrace, hevs, hbusy⟩ | ⟨htrace, hbusy⟩⟩ := accept_cases h
    · exact .inl ⟨hb, [], e.code, 0, by simp, rfl⟩
    · exact .inl ⟨hbusy.trans hb, evs, 0, d, htrace, hevs⟩
    · exact .inr ⟨hbusy, htrace⟩
  · obtain ⟨evs, hevs, hdone | ⟨hbusy, htrace⟩⟩ := evaluate_events h
    · exact ⟨evs, hevs, .inl hdone⟩
    · exact ⟨evs, hevs, .inr ⟨hbusy.trans hb, htrace⟩⟩

/-! ### The status table (R109) -/

theorem legal_ok (d : Word) : (Event.respond 0 d).Legal := ⟨Nat.zero_le _, fun h => absurd rfl h⟩

theorem legal_of_response_last {evs : List Event} (hevs : responseOf evs = none) {st : BitVec 4} {d : Word}
    (hr : (Event.respond st d).Legal) : ∀ e ∈ evs ++ [.respond st d], e.Legal :=
  List.forall_mem_append.2 ⟨legal_of_noResponse hevs, List.forall_mem_singleton.2 hr⟩

theorem State.TraceLegal.append {s t : State} (hs : s.TraceLegal) {evs : List Event} (hevs : ∀ e ∈ evs, e.Legal)
    (htrace : t.trace = s.trace ++ evs) : t.TraceLegal := by
  intro e he
  rw [htrace] at he
  exact (List.mem_append.1 he).elim (hs e) (hevs e)

theorem State.TraceLegal.afterTick {s : State} (hs : s.TraceLegal) : s.afterTick.TraceLegal := by
  rwa [State.TraceLegal, State.afterTick_trace]

theorem accept_keeps_traceLegal {c : Command} {s t : State} (hs : s.TraceLegal) (h : accept c s = .next t) :
    t.TraceLegal := by
  obtain ⟨e, -, rfl⟩ | ⟨-, -, -, ⟨evs, d, htrace, hevs, -⟩ | ⟨htrace, -⟩⟩ := accept_cases h
  · exact hs.append (legal_of_response_last (evs := []) rfl (legal_code e)) rfl
  · exact hs.append (legal_of_response_last hevs (legal_ok d)) (htrace.trans (List.append_assoc _ _ _))
  · rwa [State.TraceLegal, htrace]

theorem evaluate_keeps_traceLegal {s t : State} (hs : s.TraceLegal) (h : evaluate s = .next t) : t.TraceLegal := by
  obtain ⟨evs, hevs, ⟨-, htrace⟩ | ⟨-, htrace⟩⟩ := evaluate_events h
  · exact hs.append (legal_of_response_last hevs (legal_ok 0)) (htrace.trans (List.append_assoc _ _ _))
  · exact hs.append (legal_of_noResponse hevs) htrace

/-- Settles O23, action by action. -/
theorem responsesStayInTheStatusTable : Obligations.ResponsesStayInTheStatusTable := fun _ _ hs h =>
  step_keeps (I := State.TraceLegal) State.TraceLegal.afterTick (fun hs _ => hs) (fun hs => hs)
    (fun hs _ he => evaluate_keeps_traceLegal hs he) (fun hs _ ha => accept_keeps_traceLegal hs ha) hs h

/-! ### The steps that neither evaluate nor accept (R123, R125) -/

theorem step_waits {s : State} (hr : s.tick.rst = false) (hb : s.busy = false) (ho : s.offered = []) :
    step s = .next s.afterTick := by
  show stepOnce s = _
  simp [stepOnce, State.nextAction, hr, hb, ho]

theorem step_resets {s : State} (hr : s.tick.rst = true) : step s = .next (resetAction s.afterTick) := by
  show stepOnce s = _
  simp [stepOnce, nextAction_reset hr, perform]

/-- Settles O10: the step is the environment's part alone. -/
theorem idleBlockWaits : Obligations.IdleBlockWaits := fun s hr hb ho =>
  ⟨s.afterTick, step_waits hr hb ho, State.afterTick_capacity s, State.afterTick_count s, (State.afterTick_busy s).trans hb,
    State.afterTick_scan s, State.afterTick_slots s, State.afterTick_pins s, State.afterTick_trace s,
    (State.afterTick_offered s).trans ho, State.afterTick_cfg s⟩

/-! ### No fatal state (R113) -/

/-- The slot file has room for the whole capacity (R18, R19). -/
theorem State.Inv.capacity_le_file {s : State} (hs : s.Inv) : s.capacity.toNat ≤ s.slots.length :=
  hs.fileSize ▸ hs.capacityLeMaxSlots

theorem State.Inv.count_le_file {s : State} (hs : s.Inv) : s.count.toNat ≤ s.slots.length :=
  hs.countLeCapacity.trans hs.capacity_le_file

theorem State.Inv.slot_of_lt_count {s : State} (hs : s.Inv) {i : Nat} (hi : i < s.count.toNat) :
    ∃ m, s.slots[i]? = some m :=
  ⟨_, List.getElem?_eq_getElem (hi.trans_le hs.count_le_file)⟩

/-- Where the last check of the catalogue gives no error, its cause does not apply. -/
theorem not_of_no_error {p : Prop} [Decidable p] {e : Error} (h : (if p then some e else none) = none) : ¬ p := by
  simpa using h

/-- A registration to which no error applies finds its slot in the file (R68). -/
theorem registerMotor_completes_of_no_error {m : Slot} {ps : List Word} {k : Nat} {s : State} (hs : s.Inv)
    (h : errorOf s (.instr (.reg2 m.spr m.pinA m.pinB)) = none) : ∃ t, registerMotor m ps k s = .next t := by
  have hfile := hs.capacity_le_file
  simp only [errorOf] at h
  split at h
  · cases h
  · next hfree =>
    have hspr := not_of_no_error h
    exact registerMotor_completes (by omega) (by omega) (by omega)

/-- A SET_SPEED to which no error applies finds its motor in the file (R71). -/
theorem execSetSpeed_completes_of_no_error {motor rpm : Word} {s : State} (hs : s.Inv)
    (h : errorOf s (.instr (.setSpeed motor rpm)) = none) : ∃ t, execSetSpeed motor rpm s = .next t := by
  simp only [errorOf] at h
  split at h
  · cases h
  · next hmotor =>
    have hrpm := not_of_no_error h
    have hlt : motor.toNat < s.count.toNat := by omega
    obtain ⟨m, hm⟩ := hs.slot_of_lt_count hlt
    exact ⟨_, execSetSpeed_succeeds hlt (by omega) hm⟩

theorem exec_completes_of_no_error {i : Instr} {s : State} (hs : s.Inv) (h : errorOf s (.instr i) = none) :
    ∃ t, exec i s = .next t := by
  cases i with
  | construct cap =>
    have hcap := not_of_no_error h
    exact ⟨_, execConstruct_legal (by omega) (by omega)⟩
  | reg2 => exact registerMotor_completes_of_no_error hs h
  | reg4 => exact registerMotor_completes_of_no_error hs h
  | setSpeed => exact execSetSpeed_completes_of_no_error hs h
  | moveBy ts => exact execMoveBy_completes (not_not.1 (not_of_no_error h)) hs.count_le_file
  | version => exact ⟨_, exec_version s⟩

/-- In a state with the invariant every record has an answer: the catalogue's error, or the command's effect. -/
theorem accept_answers {s : State} (hs : s.Inv) (c : Command) : ∃ t, accept c s = .next t := by
  cases he : errorOf s (decode c) with
  | some e => exact ⟨_, accept_of_error he⟩
  | none =>
    cases hd : decode c with
    | illegal why => exact ⟨_, accept_of_illegal hd s⟩
    | instr i =>
      rw [accept_of_instr hd]
      exact exec_completes_of_no_error hs (hd ▸ he)

/-- A running move scans a registered slot, which the file has (R18, R87). -/
theorem evaluate_answers {s : State} (hs : s.Inv) (hb : s.busy = true) : ∃ t, evaluate s = .next t := by
  have hscan := hs.scanRegistered hb
  obtain ⟨m, hm⟩ := hs.slot_of_lt_count hscan
  exact ⟨_, evaluate_eq hscan hm⟩

/-- From a state with the invariant each of the four kinds of step answers a next state (R113). -/
theorem step_answers {s : State} (hs : s.Inv) : ∃ t, step s = .next t := by
  cases hr : s.tick.rst with
  | true => exact ⟨_, step_resets hr⟩
  | false =>
    cases hb : s.busy with
    | true =>
      rw [step_evaluates hr hb]
      exact evaluate_answers hs.afterTick (by simpa using hb)
    | false =>
      cases ho : s.offered with
      | nil => exact ⟨_, step_waits hr hb ho⟩
      | cons c rest =>
        rw [step_accepts hr hb ho]
        exact accept_answers (hs.afterTick.offering rest) c

/-- Settles O47, by induction on the number of steps: each step answers a state that meets the invariant again (O46). -/
theorem legalStatesNeverStop : Obligations.LegalStatesNeverStop := by
  intro s hs n
  induction n generalizing s with
  | zero => exact ⟨s, rfl⟩
  | succ n ih =>
    obtain ⟨t, ht⟩ := step_answers hs
    rw [run_succ ht]
    exact ih t (everyStepKeepsTheBankInvariants s t hs ht)

end Sys2Proof.Machine

/-! ## Reset (R125) -/

namespace Sys2Proof.Machine

/-- Settles O11: the step is the reset action, whose state is idle and keeps the offered commands. -/
theorem resetAbandonsEverything : Obligations.ResetAbandonsEverything := fun s hr =>
  ⟨resetAction s.afterTick, step_resets hr, rfl, rfl, rfl, rfl, State.registered_of_count_zero rfl,
    State.afterTick_trace s, State.afterTick_pins s, State.afterTick_offered s, State.afterTick_cfg s,
    State.afterTick_time s,
    fun _ _ hrelease ho => step_accepts hrelease rfl ((State.afterTick_offered s).trans ho)⟩

end Sys2Proof.Machine

/-! ## The first step of a motor (R92, R106, R134) -/

namespace Sys2Proof.Machine

/-- The evaluation of an active slot that waits on its gate only moves the scan on (R88). -/
theorem evaluate_of_waiting {s : State} {m : Slot} (hc : s.scan.toNat < s.count.toNat)
    (hm : s.slots[s.scan.toNat]? = some m) (hleft : m.remaining ≠ 0) (hwait : m.stepsAt s.nowMs = false) :
    evaluate s = .next (s.scanTo ((s.scan.toNat + 1) % s.count.toNat)) := by
  have hactive : s.allDone = false := State.not_allDone_iff.2 ⟨m, State.mem_registered.2 ⟨_, hc, hm⟩, hleft⟩
  rw [evaluate_eq hc hm, afterSlot_of_waiting hm hwait, finishEvaluation, if_neg (by simp [hactive])]

/-- The events of an evaluation are the scanned slot's writes and at most the response of a completed move (R87, R89). -/
theorem newEvents_evaluate {s t : State} {m : Slot} (h : evaluate s = .next t) (hm : s.slots[s.scan.toNat]? = some m) :
    newEvents s t = m.writes s.nowMs ++ [.respond 0 0] ∨ newEvents s t = m.writes s.nowMs := by
  obtain ⟨-, -, -, htrace⟩ | ⟨-, -, -, htrace⟩ := evaluate_ends h hm
  · exact .inl (newEvents_append (htrace.trans (List.append_assoc _ _ _)))
  · exact .inr (newEvents_append htrace)

theorem filter_writes_ne_respond (m : Slot) (now : Word) :
    (m.writes now).filter (fun e => e != .respond 0 0) = m.writes now := by
  rw [List.filter_eq_self]
  intro e he
  obtain ⟨p, -, l, rfl⟩ := Slot.mem_writes he
  rfl

/-- Without the response, the events of an evaluation are the scanned slot's writes. -/
theorem filter_newEvents_evaluate {s t : State} {m : Slot} (h : evaluate s = .next t)
    (hm : s.slots[s.scan.toNat]? = some m) :
    (newEvents s t).filter (fun e => e != .respond 0 0) = m.writes s.nowMs := by
  obtain hevs | hevs := newEvents_evaluate h hm
  · rw [hevs, List.filter_append, filter_writes_ne_respond]
    exact List.append_nil _
  · rw [hevs, filter_writes_ne_respond]

/-- A motor that has not stepped since its registration steps once the clock sample itself has reached its interval: its
last step is at sample 0 (R68, R134). -/
theorem stepsAt_of_lastStep_zero {m : Slot} (hlast : m.lastStep = 0) (hleft : m.remaining ≠ 0) (s : State) :
    m.stepsAt s.nowMs = true ↔ m.interval.toNat ≤ s.time % 2 ^ 32 := by
  rw [Slot.stepsAt_iff, and_iff_right hleft, hlast, show s.nowMs - 0 = BitVec.ofNat 32 s.time from BitVec.sub_zero _,
    BitVec.toNat_ofNat]

/-- The first step Forward goes to index 1, where there is one (R92, R106). -/
theorem phaseOf_nextIndex_forward_zero {spr : Word} (h : 1 ≤ spr.toNat) :
    (phaseOf (nextIndex .forward 0 spr)).val = if spr = 1 then 0 else 1 := by
  have hone : spr = 1 ↔ (0 : Word).toNat + 1 = spr.toNat := by
    rw [BitVec.toNat_eq]
    exact eq_comm
  simp only [phaseOf, nextIndex_forward (idx := 0) h, hone]
  split <;> rfl

/-- The first step Backward goes to the last index (R92, R106). -/
theorem phaseOf_nextIndex_backward_zero {spr : Word} (h : 1 ≤ spr.toNat) :
    (phaseOf (nextIndex .backward 0 spr)).val = (spr.toNat - 1) % 4 := by
  simp only [phaseOf, nextIndex_backward (idx := 0) h]
  rfl

/-- Settles O26: where the gate is open the slot steps from index 0, and where it is closed the scan moves on. -/
theorem firstStepOfARegisteredMotor : Obligations.FirstStepOfARegisteredMotor := by
  intro s spr interval remaining pinA pinB pinC pinD w d m hreg hc hm hspr hpos
  have hleft : m.remaining ≠ 0 := by
    subst hreg
    intro hzero
    have hzero : remaining = 0 := hzero
    simp [hzero] at hpos
  have hopen : m.stepsAt s.nowMs = true ↔ interval.toNat ≤ s.time % 2 ^ 32 := by
    rw [stepsAt_of_lastStep_zero (by rw [hreg]; rfl) hleft, hreg]
  split
  · next hif =>
    have heval := evaluate_eq hc hm
    refine ⟨_, heval, phaseOf (nextIndex d 0 spr), ?_, ?_⟩
    · rw [filter_newEvents_evaluate heval hm, writes_of_step (hopen.2 hif), hreg]
      rfl
    · cases d with
      | forward => exact phaseOf_nextIndex_forward_zero hspr
      | backward => exact phaseOf_nextIndex_backward_zero hspr
  · next hif =>
    have hwait : m.stepsAt s.nowMs = false := by simpa using mt hopen.1 hif
    exact ⟨_, evaluate_of_waiting hc hm hleft hwait, newEvents_append (List.append_nil _).symm, rfl⟩

end Sys2Proof.Machine

/-! ## The pins of the registered slots (R128) -/

namespace Sys2Proof.Machine

/-- Accepting a record keeps the registered pins configured: a registration configures the new motor's (R68). -/
theorem AcceptEffect.pinsConfigured {c : Command} {s t : State} (h : AcceptEffect c s t) (hs : PinsWf s.pins)
    (hconf : s.PinsConfigured) : t.PinsConfigured := by
  cases h with
  | answered => exact hconf
  | constructed =>
    intro m hm
    rw [State.registered_of_count_zero rfl] at hm
    cases hm
  | registered spr w a b c d k hfree hspr hfile =>
    refine forall_registered_of_set rfl (fun _ => lt_count_of_lt_withMotor hfree) (fun p hp => ?_) fun m hm p hp => ?_
    · rw [withMotor_pin hs, if_pos hp]
    · rw [withMotor_pin hs]
      split
      · rfl
      · exact hconf m hm p hp
  | spedUp motor rpm m hd hmotor hrpm hm =>
    exact forall_registered_of_set rfl (fun j hj _ => hj) (hconf m (State.mem_registered.2 ⟨_, hmotor, hm⟩)) hconf
  | moveDone ts hn hfile => exact forall_registered_withMoveTargets hn hfile (fun _ _ hm => hm) hconf
  | moveStarted ts hn hfile => exact forall_registered_withMoveTargets hn hfile (fun _ _ hm => hm) hconf

/-- No accepted record writes a pin (R106). -/
theorem AcceptEffect.sinkWrite_not_mem {c : Command} {s t : State} (h : AcceptEffect c s t) (p : Word) (l : Level) :
    .sinkWrite p l ∉ newEvents s t := by
  cases h with
  | registered => simp [newEvents, State.withMotor]
  | moveStarted => simp [newEvents, State.withMoveTargets]
  | answered | constructed | spedUp | moveDone => simp [newEvents, State.withMoveTargets]

/-- An evaluation writes pins of the scanned slot alone (R91, R99). -/
theorem mem_pins_of_sinkWrite {s t : State} {m : Slot} (h : evaluate s = .next t) (hm : s.slots[s.scan.toNat]? = some m)
    {p : Word} {l : Level} (hw : .sinkWrite p l ∈ newEvents s t) : p ∈ m.pins := by
  have hmem : .sinkWrite p l ∈ m.writes s.nowMs := by
    obtain hevs | hevs := newEvents_evaluate h hm <;> simpa [hevs] using hw
  obtain ⟨q, hq, l', he⟩ := Slot.mem_writes hmem
  cases he
  exact hq

/-- An evaluation keeps the registered pins configured: it changes no mode and no slot's pins (R91). -/
theorem evaluate_keeps_pinsConfigured {s t : State} (h : evaluate s = .next t) (hs : PinsWf s.pins)
    (hconf : s.PinsConfigured) : t.PinsConfigured := by
  obtain ⟨m, hc, hm, hslots⟩ := evaluate_slots h
  obtain ⟨-, -, -, -, -, -, hcount, -, -, -, -, hmode⟩ := frameOfEvaluate s t m hs h hm
  refine forall_registered_of_set hslots (fun j hj _ => hcount ▸ hj) (fun p hp => ?_) fun x hx p hp => ?_
  · rw [hmode]
    exact hconf m (State.mem_registered.2 ⟨_, hc, hm⟩) p (by simpa using hp)
  · rw [hmode]
    exact hconf x hx p hp

/-- The registered slots and the sink are all that this reads. -/
theorem State.PinsConfigured.congr {s t : State} (h : s.PinsConfigured) (hslots : t.slots = s.slots)
    (hcount : t.count = s.count) (hpins : t.pins = s.pins) : t.PinsConfigured := by
  unfold State.PinsConfigured State.registered State.pin
  rw [hslots, hcount, hpins]
  exact h

theorem State.PinsConfigured.afterTick {s : State} (h : s.PinsConfigured) : s.afterTick.PinsConfigured :=
  h.congr (State.afterTick_slots s) (State.afterTick_count s) (State.afterTick_pins s)

/-- The events since a state are those since any state with its trace. -/
theorem newEvents_congr {s s' t : State} (h : s'.trace = s.trace) : newEvents s' t = newEvents s t := by
  rw [newEvents, newEvents, h]

theorem sinkWrite_not_mem_of_trace_eq {s t : State} (h : t.trace = s.trace) (p : Word) (l : Level) :
    .sinkWrite p l ∉ newEvents s t := by
  rw [newEvents_append (h.trans (List.append_nil _).symm)]
  exact List.not_mem_nil

/-- Settles O50, action by action: only an evaluation writes pins, and they belong to a registered slot. -/
theorem pinsAreConfiguredBeforeTheyAreWritten : Obligations.PinsAreConfiguredBeforeTheyAreWritten := by
  intro s t hs hconf h
  have hs' : PinsWf s.afterTick.pins := (State.afterTick_pins s).symm ▸ hs
  obtain ⟨-, rfl⟩ | ⟨-, -, he⟩ | ⟨-, -, -, rfl⟩ | ⟨-, -, c, rest, -, ha⟩ := step_cases h
  · refine ⟨fun m hm => ?_, fun p l hw => absurd hw (sinkWrite_not_mem_of_trace_eq (State.afterTick_trace s) p l)⟩
    rw [State.registered_of_count_zero rfl] at hm
    cases hm
  · refine ⟨evaluate_keeps_pinsConfigured he hs' hconf.afterTick, fun p l hw => ?_⟩
    obtain ⟨m, hc, hm, -⟩ := evaluate_slots he
    rw [← newEvents_congr (State.afterTick_trace s)] at hw
    have hmode := hconf.afterTick m (State.mem_registered.2 ⟨_, hc, hm⟩) p (mem_pins_of_sinkWrite he hm hw)
    rwa [State.pin, State.afterTick_pins] at hmode
  · exact ⟨hconf.afterTick, fun p l hw => absurd hw (sinkWrite_not_mem_of_trace_eq (State.afterTick_trace s) p l)⟩
  · have heffect := accept_effect ha
    refine ⟨heffect.pinsConfigured hs' hconf.afterTick, fun p l hw => ?_⟩
    rw [← newEvents_congr (s' := s.afterTick.offering rest) (State.afterTick_trace s)] at hw
    exact absurd hw (heffect.sinkWrite_not_mem p l)

end Sys2Proof.Machine

/-! ## A fair environment completes every move (R140)

A move that never ended would be a run in which every state is busy. In such a run each slot with steps left is stepped
sooner or later: its gate stays closed only while less time than its interval has passed, and no window between two of
its evaluations is long enough to wrap the elapsed time past the open gate. So in the end no slot has steps left, which
a busy block cannot be in. -/

namespace Sys2Proof.Machine

/-! ### The gate under a fair clock (R90, R130) -/

/-- A gate evaluated at times that grow without bound, in gaps too short to wrap past the open gate, is open at one of
them. -/
theorem gate_opens_of_fair_times {τ : Nat → Nat} {last interval : Word} (hinterval : interval.toNat ≤ 60000)
    (hmono : ∀ i, τ i ≤ τ (i + 1)) (hgap : ∀ i, τ (i + 1) - τ i < 2 ^ 32 - 60000) (hgrow : ∀ bound, ∃ i, bound ≤ τ i) :
    ∃ i, gateOpen (BitVec.ofNat 32 (τ i)) last interval = true := by
  by_contra hclosed
  have hshort : ∀ i, (BitVec.ofNat 32 (τ i) - last).toNat < interval.toNat := fun i => by
    by_contra hopen
    exact hclosed ⟨i, gateOpen_iff.2 (by omega)⟩
  have helapsed : ∀ i, (BitVec.ofNat 32 (τ i) - last).toNat + τ 0 = (BitVec.ofNat 32 (τ 0) - last).toNat + τ i := by
    intro i
    induction i with
    | zero => rfl
    | succ i ih =>
      have h0 := hshort i
      have h1 := hmono i
      have h2 := hgap i
      have hnext : (BitVec.ofNat 32 (τ (i + 1)) - last).toNat = (BitVec.ofNat 32 (τ i) - last).toNat + (τ (i + 1) - τ i) := by
        simp only [BitVec.toNat_sub, BitVec.toNat_ofNat] at h0 ⊢
        omega
      omega
  obtain ⟨i, hi⟩ := hgrow (τ 0 + 60000)
  have := hshort i
  have := helapsed i
  omega

/-- R140's conditions on the clock: (b) the time grows without bound, (c) less than 2^32 - 60000 ms pass between two
evaluations of the same slot, which are `count` evaluations apart. -/
structure FairClock (advance : Nat → Nat) (count : Nat) : Prop where
  grows : ∀ bound, ∃ n, bound ≤ ((List.range n).map advance).sum
  gap : ∀ k, ((List.range count).map fun j => advance (k + 1 + j)).sum < 2 ^ 32 - 60000

/-! ### Sequences of evaluations -/

theorem evaluations_of_idle {s : State} (hb : s.busy = false) (advances : List Nat) :
    evaluations advances s = .next s := by
  cases advances with
  | nil => rfl
  | cons a advances => rw [evaluations, if_neg (by simp [hb])]

theorem evaluations_append {as : List Nat} {s u : State} (h : evaluations as s = .next u) (bs : List Nat) :
    evaluations (as ++ bs) s = evaluations bs u := by
  induction as generalizing s with
  | nil => cases h; rfl
  | cons a as ih =>
    cases hb : s.busy with
    | false =>
      rw [evaluations_of_idle hb] at h
      cases h
      rw [evaluations_of_idle hb, evaluations_of_idle hb]
    | true =>
      rw [List.cons_append]
      rw [evaluations, if_pos hb] at h ⊢
      split at h
      · exact ih h
      · cases h
      · cases h

/-- From a state with the invariant every sequence of evaluations answers a state with the invariant (R113). -/
theorem evaluations_answer {s : State} (hs : s.Inv) (advances : List Nat) :
    ∃ u, evaluations advances s = .next u ∧ u.Inv := by
  induction advances generalizing s with
  | nil => exact ⟨s, rfl, hs⟩
  | cons a advances ih =>
    cases hb : s.busy with
    | false => exact ⟨s, evaluations_of_idle hb _, hs⟩
    | true =>
      obtain ⟨t, ht⟩ := evaluate_answers (hs.later a) hb
      rw [evaluations_cons hb ht]
      exact ih (evaluate_keeps_inv (hs.later a) hb ht)

/-- A sequence of evaluations that ends a move ends it with the move's response (R89). -/
theorem evaluations_response {advances : List Nat} {s u : State} (hb : s.busy = true)
    (h : evaluations advances s = .next u) (hend : u.busy = false) : u.trace.getLast? = some (.respond 0 0) := by
  refine evaluations_keep (P := fun x => x.busy = false → x.trace.getLast? = some (.respond 0 0))
    (fun a _ hb he hidle => ?_) (fun hidle => by simp [hb] at hidle) h hend
  obtain ⟨m, -, hm, -⟩ := evaluate_slots he
  obtain ⟨-, -, -, htrace⟩ | ⟨-, hbusy, -⟩ := evaluate_ends he hm
  · exact htrace ▸ List.getLast?_concat
  · rw [hidle] at hbusy
    exact absurd hbusy (by simp [hb])

/-! ### A move that never ends -/

/-- A run of evaluations, the clock advancing by `advance n` before evaluation `n`, in which the block stays busy. -/
structure EndlessMove (advance : Nat → Nat) (run : Nat → State) : Prop where
  inv : ∀ n, (run n).Inv
  busy : ∀ n, (run n).busy = true
  evaluates : ∀ n, evaluate ((run n).later (advance n)) = .next (run (n + 1))

/-- The clock sample's time in evaluation `n + i * count`, `i` rounds after evaluation `n`. -/
def roundTime (run : Nat → State) (n i : Nat) : Nat := (run (n + i * (run 0).count.toNat + 1)).time

/-- A move that no number of evaluations ends is an endless run. -/
theorem exists_endlessMove {s : State} {advance : Nat → Nat} (hs : s.Inv)
    (hbusy : ∀ n u, evaluations ((List.range n).map advance) s = .next u → u.busy = true) :
    ∃ run, run 0 = s ∧ EndlessMove advance run := by
  choose run hrun hinv using fun n => evaluations_answer hs ((List.range n).map advance)
  have hb := fun n => hbusy n (run n) (hrun n)
  refine ⟨run, ?_, hinv, hb, fun n => ?_⟩
  · have h0 := hrun 0
    cases h0
    rfl
  · obtain ⟨t, ht⟩ := evaluate_answers ((hinv n).later (advance n)) (hb n)
    have hnext := hrun (n + 1)
    rw [List.range_succ, List.map_append, evaluations_append (hrun n), List.map_singleton, evaluations_cons (hb n) ht] at hnext
    cases hnext
    exact ht

namespace EndlessMove

variable {advance : Nat → Nat} {run : Nat → State} (h : EndlessMove advance run)

include h

theorem count_eq (n : Nat) : (run n).count = (run 0).count := by
  induction n with
  | zero => rfl
  | succ n ih =>
    obtain ⟨-, -, -, -, hcount, -⟩ := evaluate_environment (h.evaluates n)
    exact hcount.trans ih

theorem time_succ (n : Nat) : (run (n + 1)).time = (run n).time + advance n := by
  obtain ⟨-, htime, -⟩ := evaluate_environment (h.evaluates n)
  exact htime

theorem time_add (n k : Nat) : (run (n + k)).time = (run n).time + ((List.range k).map fun j => advance (n + j)).sum := by
  induction k with
  | zero => rfl
  | succ k ih =>
    rw [← Nat.add_assoc, h.time_succ, ih, List.range_succ, List.map_append, List.sum_append, List.map_singleton,
      List.sum_singleton, Nat.add_assoc]

theorem time_eq (n : Nat) : (run n).time = (run 0).time + ((List.range n).map advance).sum := by
  simpa using h.time_add 0 n

theorem time_mono {n n' : Nat} (hle : n ≤ n') : (run n).time ≤ (run n').time := by
  obtain ⟨k, rfl⟩ := Nat.exists_eq_add_of_le hle
  exact h.time_add n k ▸ Nat.le_add_right _ _

/-- The scan of a move that never ends moves on cyclically (R88). -/
theorem scan_add (n k : Nat) : (run (n + k)).scan.toNat = ((run n).scan.toNat + k) % (run 0).count.toNat := by
  induction k with
  | zero => exact (Nat.mod_eq_of_lt (h.count_eq n ▸ (h.inv n).scanRegistered (h.busy n))).symm
  | succ k ih =>
    obtain ⟨m, -, hm, -⟩ := evaluate_slots (h.evaluates (n + k))
    obtain ⟨-, hidle, -⟩ | ⟨-, -, hscan, -⟩ := evaluate_ends (h.evaluates (n + k)) hm
    · exact absurd hidle (by simp [h.busy])
    · rw [← Nat.add_assoc, hscan, State.later_scan, State.later_count, h.count_eq, ih, Nat.mod_add_mod, Nat.add_assoc]

theorem count_pos : 0 < (run 0).count.toNat := Nat.zero_lt_of_lt ((h.inv 0).scanRegistered (h.busy 0))

/-- Each registered slot is scanned again within a round (R88). -/
theorem exists_scan {j : Nat} (hj : j < (run 0).count.toNat) (n : Nat) : ∃ k, (run (n + k)).scan.toNat = j := by
  have hscan := h.count_eq n ▸ (h.inv n).scanRegistered (h.busy n)
  refine ⟨(run 0).count.toNat - (run n).scan.toNat + j, ?_⟩
  rw [h.scan_add, show (run n).scan.toNat + ((run 0).count.toNat - (run n).scan.toNat + j) = j + (run 0).count.toNat by omega,
    Nat.add_mod_right, Nat.mod_eq_of_lt hj]

/-- The slot that is scanned now is scanned again after every round (R88). -/
theorem scan_rounds (n i : Nat) : (run (n + i * (run 0).count.toNat)).scan = (run n).scan := by
  apply BitVec.eq_of_toNat_eq
  rw [h.scan_add, Nat.add_mul_mod_self_right]
  exact Nat.mod_eq_of_lt (h.count_eq n ▸ (h.inv n).scanRegistered (h.busy n))

/-- Slot `j` after evaluation `n`: evaluated where the scan stands at it, else as before. -/
theorem slot_succ {n j : Nat} {m : Slot} (hm : (run n).slots[j]? = some m) :
    (run (n + 1)).slots[j]? =
      some (if j = (run n).scan.toNat then m.evaluated (BitVec.ofNat 32 (run (n + 1)).time) else m) := by
  split
  · next hj =>
    subst hj
    rw [h.time_succ]
    exact evaluate_scanned (h.evaluates n) hm
  · next hj => exact (evaluate_unscanned (h.evaluates n) hj).trans hm

/-- A slot with no steps left stays as it is (R94). -/
theorem slot_of_finished {n j : Nat} {m : Slot} (hm : (run n).slots[j]? = some m) (hdone : m.remaining = 0) (k : Nat) :
    (run (n + k)).slots[j]? = some m := by
  induction k with
  | zero => exact hm
  | succ k ih => rw [← Nat.add_assoc, h.slot_succ ih, evaluated_of_waiting (stepsAt_of_finished hdone _), ite_self]

/-- A slot that no evaluation steps stays as it is. -/
theorem slot_of_waiting {n j : Nat} {m : Slot} (hm : (run n).slots[j]? = some m)
    (hwait : ∀ k, (run (n + k)).slots[j]? = some m → (run (n + k)).scan.toNat = j →
      m.stepsAt (BitVec.ofNat 32 (run (n + k + 1)).time) = false) (k : Nat) :
    (run (n + k)).slots[j]? = some m := by
  induction k with
  | zero => exact hm
  | succ k ih =>
    rw [← Nat.add_assoc, h.slot_succ ih]
    split
    · next hj => rw [evaluated_of_waiting (hwait k ih hj.symm)]
    · rfl

/-- A round takes the `count` clock advances after the one before it. -/
theorem roundTime_succ (n i : Nat) :
    roundTime run n (i + 1) = roundTime run n i +
      ((List.range (run 0).count.toNat).map fun j => advance (n + i * (run 0).count.toNat + 1 + j)).sum := by
  rw [roundTime, roundTime, ← h.time_add]
  congr 2
  ring

theorem exists_le_roundTime (hfair : FairClock advance (run 0).count.toNat) (n bound : Nat) :
    ∃ i, bound ≤ roundTime run n i := by
  obtain ⟨i, hi⟩ := hfair.grows bound
  have hround := Nat.le_mul_of_pos_right i h.count_pos
  refine ⟨i, hi.trans ?_⟩
  calc ((List.range i).map advance).sum ≤ (run i).time := h.time_eq i ▸ Nat.le_add_left _ _
    _ ≤ (run (n + i * (run 0).count.toNat + 1)).time := h.time_mono (by omega)

/-- Under a fair clock a slot with steps left is stepped sooner or later (R140): a slot that waited in every round would
have a gate that opens in one of them. -/
theorem exists_step (hfair : FairClock advance (run 0).count.toNat) {n j : Nat} {m : Slot}
    (hj : j < (run 0).count.toNat) (hm : (run n).slots[j]? = some m) (hleft : m.remaining ≠ 0) :
    ∃ k m', (run (n + k)).slots[j]? = some m' ∧ m'.remaining.toNat < m.remaining.toNat := by
  by_contra hnever
  have hwait : ∀ k, (run (n + k)).slots[j]? = some m → (run (n + k)).scan.toNat = j →
      m.stepsAt (BitVec.ofNat 32 (run (n + k + 1)).time) = false := by
    intro k hk hscan
    by_contra hstep
    have hnext := h.slot_succ hk
    have hless := remaining_sub_one hleft
    rw [if_pos hscan.symm, evaluated_of (by simpa using hstep)] at hnext
    refine hnever ⟨k + 1, _, hnext, ?_⟩
    rw [Slot.stepped_remaining]
    omega
  have hstay := h.slot_of_waiting hm hwait
  obtain ⟨k, hk⟩ := h.exists_scan hj n
  obtain ⟨-, -, hinterval, -⟩ :=
    (h.inv n).slotsLegal m (State.mem_registered.2 ⟨j, (h.count_eq n).symm ▸ hj, hm⟩)
  obtain ⟨i, hopen⟩ := gate_opens_of_fair_times (τ := roundTime run (n + k)) (last := m.lastStep) hinterval
    (fun i => by rw [h.roundTime_succ]; exact Nat.le_add_right _ _)
    (fun i => by rw [h.roundTime_succ, Nat.add_sub_cancel_left]; exact hfair.gap _) (h.exists_le_roundTime hfair _)
  have hclosed := hwait (k + i * (run 0).count.toNat) (hstay _) (by rw [← Nat.add_assoc, h.scan_rounds, hk])
  rw [← Nat.add_assoc] at hclosed
  exact Bool.eq_false_iff.1 hclosed (Slot.stepsAt_iff.2 ⟨hleft, gateOpen_iff.1 hopen⟩)

/-- Under a fair clock each slot takes all its steps, by induction on the number of them. -/
theorem exists_finished (hfair : FairClock advance (run 0).count.toNat) {n j : Nat} {m : Slot}
    (hj : j < (run 0).count.toNat) (hm : (run n).slots[j]? = some m) :
    ∃ k m', (run (n + k)).slots[j]? = some m' ∧ m'.remaining = 0 := by
  induction hr : m.remaining.toNat using Nat.strong_induction_on generalizing n m with
  | _ r ih =>
    by_cases hdone : m.remaining = 0
    · exact ⟨0, m, hm, hdone⟩
    · obtain ⟨k, m', hm', hless⟩ := h.exists_step hfair hj hm hdone
      obtain ⟨k', m'', hm'', hdone'⟩ := ih _ (hr ▸ hless) hm' rfl
      exact ⟨k + k', m'', Nat.add_assoc n k k' ▸ hm'', hdone'⟩

/-- Under a fair clock there is a time at which the first `c` slots have all finished, by induction on `c`. -/
theorem exists_all_finished (hfair : FairClock advance (run 0).count.toNat) {c : Nat} (hc : c ≤ (run 0).count.toNat) :
    ∃ n, ∀ j < c, ∃ m, (run n).slots[j]? = some m ∧ m.remaining = 0 := by
  induction c with
  | zero => exact ⟨0, fun j hj => absurd hj (Nat.not_lt_zero j)⟩
  | succ c ih =>
    obtain ⟨n, hn⟩ := ih (by omega)
    obtain ⟨m, hm⟩ := (h.inv n).slot_of_lt_count ((h.count_eq n).symm ▸ hc)
    obtain ⟨k, m', hm', hdone⟩ := h.exists_finished hfair hc hm
    refine ⟨n + k, fun j hj => ?_⟩
    obtain hlt | rfl := Nat.lt_succ_iff_lt_or_eq.1 hj
    · obtain ⟨x, hx, hx0⟩ := hn j hlt
      exact ⟨x, h.slot_of_finished hx hx0 k, hx0⟩
    · exact ⟨m', hm', hdone⟩

/-- No move is endless under a fair clock: a busy block has steps left. -/
theorem not_fairClock : ¬ FairClock advance (run 0).count.toNat := by
  intro hfair
  obtain ⟨n, hn⟩ := h.exists_all_finished hfair le_rfl
  have hdone : (run n).allDone = true := State.allDone_iff.2 fun m hm => by
    obtain ⟨j, hj, hm⟩ := State.mem_registered.1 hm
    obtain ⟨x, hx, hx0⟩ := hn j (h.count_eq n ▸ hj)
    rwa [Option.some.inj (hm.symm.trans hx)]
  exact absurd hdone (by simp [(h.inv n).busyActive (h.busy n)])

end EndlessMove

/-- Settles O35: a move that no number of evaluations ended would be endless, which the clock's conditions exclude. -/
theorem everyMoveCompletesUnderFairness : Obligations.EveryMoveCompletesUnderFairness := by
  intro s advance hs hb hgrows hgap
  by_contra hnever
  have hbusy : ∀ n u, evaluations ((List.range n).map advance) s = .next u → u.busy = true := by
    intro n u hu
    by_contra hidle
    have hidle : u.busy = false := by simpa using hidle
    exact hnever ⟨n, u, hu, hidle, evaluations_response hb hu hidle⟩
  obtain ⟨run, rfl, hrun⟩ := exists_endlessMove hs hbusy
  exact hrun.not_fairClock ⟨hgrows, hgap⟩

end Sys2Proof.Machine
